-- ==== Sys2Proof/Word.lean ====
section
/-! DEFINITION. The two value widths of the Modbus RTU slave engine (spec rules R10, R11). -/

namespace Sys2Proof

/-- A byte: 8 bits, what the serial channel carries (R11). -/
abbrev Byte := BitVec 8

/-- A word: a 16-bit register value, address or count (R10, R11). -/
abbrev Word := BitVec 16

end Sys2Proof
end

