-- ==== Sys2Proof/Syntax.lean ====
section
/-! DEFINITION. The instructions: one constructor per row of spec/opcode_table.json (R103, R97 to R101). -/

namespace Sys2Proof

/-- The PDUs of the hardware.  Requests are what it executes (R2, R103); responses are what it builds and
transmits (R97 to R101).  Byte counts are no fields: a well-formed PDU's byte count is fixed by its data. -/
inductive Instr where
  /-- Read Coils, function code 0x01, format RD (R94, R161). -/
  | rdCoils (addr count : Word)
  /-- Read Discrete Inputs, function code 0x02, format RD (R94, R162). -/
  | rdDiscrete (addr count : Word)
  /-- Read Holding Registers, function code 0x03, format RD (R94, R163). -/
  | rdHolding (addr count : Word)
  /-- Read Input Registers, function code 0x04, format RD (R94, R164). -/
  | rdInput (addr count : Word)
  /-- Write Single Register, function code 0x06, format WS (R95, R181). -/
  | wrSingle (addr value : Word)
  /-- Write Multiple Registers, function code 0x10, format WM (R96, R182); the count is the number of values. -/
  | wrMulti (addr : Word) (vals : List Word)
  /-- Every other function code, with any payload (R103, R112). -/
  | unsupported (fc : Byte) (payload : List Byte)
  /-- Success response to Read Coils, format RB: the packed data bytes (R98). -/
  | rspRdCoils (data : List Byte)
  /-- Success response to Read Discrete Inputs, format RB: the packed data bytes (R98). -/
  | rspRdDiscrete (data : List Byte)
  /-- Success response to Read Holding Registers, format RR: the values (R97). -/
  | rspRdHolding (vals : List Word)
  /-- Success response to Read Input Registers, format RR: the values (R97). -/
  | rspRdInput (vals : List Word)
  /-- Success response to Write Single Register, format WSR: the echoed request (R99). -/
  | rspWrSingle (addr value : Word)
  /-- Success response to Write Multiple Registers, format WMR (R100). -/
  | rspWrMulti (addr count : Word)
  /-- Exception response, format EX: bits 6..0 of the function code and the exception code (R101). -/
  | rspException (fc : BitVec 7) (code : Byte)
  deriving DecidableEq, Repr

end Sys2Proof
end

