-- ==== Sys2Proof/Config.lean ====
section
/-! DEFINITION. The implementation parameters of spec rule R9, and the one that is left free. -/

namespace Sys2Proof

/-- `MIN_FRAME`: the shortest frame not discarded by its length (R9, R92). -/
def Config.minFrame : Nat := 4

/-- `MAX_FRAME`: the length at which a frame is complete without a silence (R9, D2).
DESIGN CHOICE of the spec: the source gives no number (log entry 9; unsafe). -/
def Config.maxFrame : Nat := 256

/-- `MAX_READ_REGS` (R9, R111). -/
def Config.maxReadRegs : Nat := 125

/-- `MAX_READ_BITS` (R9, R111). -/
def Config.maxReadBits : Nat := 2000

/-- `MAX_WRITE_REGS` (R9, R111, D3, C6).  DESIGN CHOICE of the spec (log entry 9; unsafe). -/
def Config.maxWriteRegs : Nat := 123

/-- `ADDR_MIN`: the least legal slave address (R9). -/
def Config.addrMin : Nat := 1

/-- `ADDR_MAX`: the greatest legal slave address (R9). -/
def Config.addrMax : Nat := 247

/-- `INIT_REG`: a register of a new block (R9, R40, D10).  DESIGN CHOICE (log entry 5; unsafe). -/
def Config.initReg : Word := 0

/-- `INIT_BIT`: a bit of a new block (R9, R40, D10).  DESIGN CHOICE (log entry 5; unsafe). -/
def Config.initBit : Bool := false

/-- `internal_error`: the predicate that makes a request fail with SlaveDeviceFailure (R9, R288, D16).
DESIGN CHOICE: constant false, the spec's default (log entry 8; unsafe). -/
def Config.internalError (_request : Instr) : Bool := false

/-- `T_SILENT_TICKS`: the silent interval in ticks of the gap timer (R9, D32), an OPEN parameter: nothing is
known of it (log entry 4; safe). -/
opaque Config.tSilentTicks : Nat

end Sys2Proof
end

