-- ==== Sys2Proof/WellFormed.lean ====
section
/-! DEFINITION. Which instructions are well-formed: the limits of R111 on requests, what R97 to R101 say of
responses. -/

namespace Sys2Proof

/-- The function codes with a meaning of their own: `SUPPORTED_FC` (R2, R9, R103). -/
def supportedFc (fc : Byte) : Bool :=
  fc == 0x01 || fc == 0x02 || fc == 0x03 || fc == 0x04 || fc == 0x06 || fc == 0x10

/-- `1 <= n <= limit` (R111). -/
def countWithin (limit n : Nat) : Bool := decide (1 ≤ n ∧ n ≤ limit)

/-- A well-formed instruction: one that some frame of at most `MAX_FRAME` bytes carries and that the decoder
of R110 accepts (a request), or one that the hardware can send (a response; byte counts 1..250 and 2..250,
exception codes 0x01..0x04: R97, R98, R261). -/
def Instr.wellFormed : Instr → Bool
  | .rdCoils _ count => countWithin Config.maxReadBits count.toNat
  | .rdDiscrete _ count => countWithin Config.maxReadBits count.toNat
  | .rdHolding _ count => countWithin Config.maxReadRegs count.toNat
  | .rdInput _ count => countWithin Config.maxReadRegs count.toNat
  | .wrSingle _ _ => true
  | .wrMulti _ vals => countWithin Config.maxWriteRegs vals.length
  | .unsupported fc payload => !supportedFc fc && decide (payload.length ≤ Config.maxFrame - Config.minFrame)
  | .rspRdCoils data => countWithin 250 data.length
  | .rspRdDiscrete data => countWithin 250 data.length
  | .rspRdHolding vals => countWithin Config.maxReadRegs vals.length
  | .rspRdInput vals => countWithin Config.maxReadRegs vals.length
  | .rspWrSingle _ _ => true
  | .rspWrMulti _ count => countWithin Config.maxWriteRegs count.toNat
  | .rspException _ code => countWithin 4 code.toNat

/-- A request: what a bus client sends and the hardware executes. -/
def Instr.isRequest : Instr → Bool
  | .rdCoils _ _ => true
  | .rdDiscrete _ _ => true
  | .rdHolding _ _ => true
  | .rdInput _ _ => true
  | .wrSingle _ _ => true
  | .wrMulti _ _ => true
  | .unsupported _ _ => true
  | .rspRdCoils _ => false
  | .rspRdDiscrete _ => false
  | .rspRdHolding _ => false
  | .rspRdInput _ => false
  | .rspWrSingle _ _ => false
  | .rspWrMulti _ _ => false
  | .rspException _ _ => false

end Sys2Proof
end

