-- ==== Sys2Proof/Decode.lean ====
section
/-! DEFINITION. The PDU Codec: bytes to instructions and back (R90 to R101, R110), and the host's view of the
opcode table.

The decoder checks the PDU's length and byte count against what the function code and the declared count imply;
the limits on counts (R111) are checked where the request is executed, with the same answer IllegalDataValue
(log entry 10). -/

namespace Sys2Proof

/-- `hi8(v) = v[15:8]` (R12). -/
def hi8 (v : Word) : Byte := v.extractLsb' 8 8

/-- `lo8(v) = v[7:0]` (R12). -/
def lo8 (v : Word) : Byte := v.extractLsb' 0 8

/-- `be16(b0, b1) = b0 * 256 + b1`: the first byte is the high byte (R12, R62, R93). -/
def be16 (b0 b1 : Byte) : Word := BitVec.ofNat 16 (b0.toNat * 256 + b1.toNat)

/-- The 16-bit words of a byte sequence, high byte first (R93); a last odd byte is no word. -/
def wordsOf : List Byte → List Word
  | hi :: lo :: rest => be16 hi lo :: wordsOf rest
  | _ => []

/-- `regs_bytes(v)`: the bytes of 16-bit values, high byte first (R62, R166). -/
def regsBytes : List Word → List Byte
  | [] => []
  | v :: rest => hi8 v :: lo8 v :: regsBytes rest

/-- Why a byte sequence is no instruction. -/
inductive DecodeError where
  /-- No byte at all: the decoder of R110 takes at least the function code. -/
  | emptyPdu
  /-- The payload's length or byte count is not the one the function code and the declared count imply (R110):
  the IllegalDataValue decode failure. -/
  | payloadLength
  /-- A function code that no response of this hardware has; only the reader of responses rejects by this name. -/
  | noSuchResponse
  deriving DecidableEq, Repr

/-- Format RD and the echo formats: two 16-bit fields and nothing else (R94, R95). -/
def decodeTwoWords (mk : Word → Word → Instr) : List Byte → Except DecodeError Instr
  | [a1, a0, n1, n0] => .ok (mk (be16 a1 a0) (be16 n1 n0))
  | _ => .error .payloadLength

/-- Format WM: address, count, byte count, then `count` values (R96, R110). -/
def decodeWrMulti : List Byte → Except DecodeError Instr
  | a1 :: a0 :: n1 :: n0 :: bc :: data =>
    if bc.toNat = 2 * (be16 n1 n0).toNat ∧ data.length = bc.toNat then
      .ok (.wrMulti (be16 a1 a0) (wordsOf data))
    else .error .payloadLength
  | _ => .error .payloadLength

/-- The request decoder (R103, R110): the function code alone selects the request. -/
def decode : List Byte → Except DecodeError Instr
  | [] => .error .emptyPdu
  | fc :: payload =>
    if fc = 0x01 then decodeTwoWords .rdCoils payload
    else if fc = 0x02 then decodeTwoWords .rdDiscrete payload
    else if fc = 0x03 then decodeTwoWords .rdHolding payload
    else if fc = 0x04 then decodeTwoWords .rdInput payload
    else if fc = 0x06 then decodeTwoWords .wrSingle payload
    else if fc = 0x10 then decodeWrMulti payload
    else .ok (.unsupported fc payload)

/-- A byte count and exactly that many data bytes (R97, R98). -/
def decodeCounted (mk : List Byte → Except DecodeError Instr) : List Byte → Except DecodeError Instr
  | bc :: data => if data.length = bc.toNat then mk data else .error .payloadLength
  | [] => .error .payloadLength

/-- Format RR: whole words after the byte count (R97). -/
def decodeValues (mk : List Word → Instr) (data : List Byte) : Except DecodeError Instr :=
  if data.length % 2 = 0 then .ok (mk (wordsOf data)) else .error .payloadLength

/-- Format EX: one byte after the function code with bit 7 set (R101). -/
def decodeException (fc : Byte) : List Byte → Except DecodeError Instr
  | [code] => .ok (.rspException (fc.extractLsb' 0 7) code)
  | _ => .error .payloadLength

/-- The reader of responses, as a bus client reads the wire (R97 to R101); the hardware has none of its own. -/
def decodeResponse : List Byte → Except DecodeError Instr
  | [] => .error .emptyPdu
  | fc :: payload =>
    if fc.getLsbD 7 then decodeException fc payload
    else if fc = 0x01 then decodeCounted (fun data => .ok (.rspRdCoils data)) payload
    else if fc = 0x02 then decodeCounted (fun data => .ok (.rspRdDiscrete data)) payload
    else if fc = 0x03 then decodeCounted (decodeValues .rspRdHolding) payload
    else if fc = 0x04 then decodeCounted (decodeValues .rspRdInput) payload
    else if fc = 0x06 then decodeTwoWords .rspWrSingle payload
    else if fc = 0x10 then decodeTwoWords .rspWrMulti payload
    else .error .noSuchResponse

/-- Two 16-bit fields, high bytes first (R94, R95, R100). -/
def encodeTwoWords (fc : Byte) (x y : Word) : List Byte := [fc, hi8 x, lo8 x, hi8 y, lo8 y]

/-- A function code, a byte count and the data it counts (R97, R98). -/
def encodeCounted (fc : Byte) (data : List Byte) : List Byte := fc :: BitVec.ofNat 8 data.length :: data

/-- Format WM (R96). -/
def encodeWrMulti (addr : Word) (vals : List Word) : List Byte :=
  encodeTwoWords 0x10 addr (BitVec.ofNat 16 vals.length)
    ++ BitVec.ofNat 8 (2 * vals.length) :: regsBytes vals

/-- The PDU bytes of an instruction (R94 to R101). -/
def encode : Instr → List Byte
  | .rdCoils addr count => encodeTwoWords 0x01 addr count
  | .rdDiscrete addr count => encodeTwoWords 0x02 addr count
  | .rdHolding addr count => encodeTwoWords 0x03 addr count
  | .rdInput addr count => encodeTwoWords 0x04 addr count
  | .wrSingle addr value => encodeTwoWords 0x06 addr value
  | .wrMulti addr vals => encodeWrMulti addr vals
  | .unsupported fc payload => fc :: payload
  | .rspRdCoils data => encodeCounted 0x01 data
  | .rspRdDiscrete data => encodeCounted 0x02 data
  | .rspRdHolding vals => encodeCounted 0x03 (regsBytes vals)
  | .rspRdInput vals => encodeCounted 0x04 (regsBytes vals)
  | .rspWrSingle addr value => encodeTwoWords 0x06 addr value
  | .rspWrMulti addr count => encodeTwoWords 0x10 addr count
  | .rspException fc code => [(fc.setWidth 8) ||| 0x80, code]

/-- Byte `k` of a number whose bit 0 is the least significant bit of byte 0. -/
def byteAt (w k : Nat) : Byte := BitVec.ofNat 8 (w / 256 ^ k)

/-- How long the table's row makes a PDU whose first bytes are given: 5 for the formats RD and WS, 6 and the
byte count for WM, otherwise what is given (table column `pdu_length`). -/
def tablePduLength (given : List Byte) : Nat :=
  match given with
  | [] => 0
  | fc :: _ =>
    if fc = 0x01 ∨ fc = 0x02 ∨ fc = 0x03 ∨ fc = 0x04 ∨ fc = 0x06 then 5
    else if fc = 0x10 then 6 + (given.getD 5 0).toNat
    else given.length

/-- The PDU whose first `nbits` bits are `w`, numbered as spec/opcode_table.json numbers them, and whose
further bytes are 0 up to the length the row gives it. -/
def tablePdu (nbits w : Nat) : List Byte :=
  let given := (List.range (max 1 ((nbits + 7) / 8))).map (byteAt w)
  given ++ List.replicate (tablePduLength given - given.length) 0

/-- The request the decoder reads from a table word (log entry 12). -/
def decodeTableWord (nbits w : Nat) : Option Instr :=
  match decode (tablePdu nbits w) with
  | .ok i => some i
  | .error _ => none

end Sys2Proof
end

