-- ==== Sys2Proof/Machine/Flags.lean ====
section
/-! DEFINITION. What acts as a flag inside the pipeline (R33): the CRC-16, the CRC match of a frame, and why a
frame is dropped. -/

namespace Sys2Proof.Machine

/-- One right shift of the CRC register: `0xA001` enters when the bit shifted out is 1 (R140). -/
def crcShift (c : Word) : Word :=
  if c.getLsbD 0 then (c >>> 1) ^^^ 0xA001#16 else c >>> 1

/-- One byte into the CRC: it enters the low 8 bits, then 8 shifts (R140, R145). -/
def crcByte (c : Word) (b : Byte) : Word := Nat.repeat crcShift 8 (c ^^^ b.setWidth 16)

/-- `k c`, written so that an evaluator computes `c` to a numeral before it goes on (`withValue_eq`). -/
def withValue {α : Type} (c : Word) (k : Word → α) : α :=
  match c.toNat with
  | 0 => k 0
  | n + 1 => k (BitVec.ofNat 16 (n + 1))

/-- The CRC register after a byte sequence, from a given start (R140). -/
def crcFrom (c : Word) : List Byte → Word
  | [] => c
  | b :: rest => withValue (crcByte c b) fun d => crcFrom d rest

/-- `crc16(q)`: start value 0xFFFF, no final XOR (R140, C1). -/
def crc16 (q : List Byte) : Word := crcFrom 0xFFFF#16 q

/-- The two CRC bytes as a frame carries them: low byte first (R63, R102, R144). -/
def crcBytes (q : List Byte) : List Byte := [lo8 (crc16 q), hi8 (crc16 q)]

/-- `crc_ok(f)`: the CRC of all bytes but the last two is the one those two hold, low byte first (R141). -/
def crcOk (f : List Byte) : Bool :=
  crc16 (f.take (f.length - 2)) == be16 (f.getD (f.length - 1) 0) (f.getD (f.length - 2) 0)

/-- Why a frame is dropped without a response (R266, R267). -/
inductive DropReason where
  | short | crc | address
  deriving DecidableEq, Repr

/-- What the Frame Validator says of a complete frame: dropped, or accepted for a Slave, by its index (R142). -/
inductive FrameVerdict where
  | drop (reason : DropReason)
  | accept (slave : Nat)
  deriving DecidableEq, Repr

/-- The Frame Validator over the addresses of the owned Slaves: length, CRC, address, in this order (R142, R264). -/
def validate (addrs : List Byte) (f : List Byte) : FrameVerdict :=
  if f.length < Config.minFrame then .drop .short
  else if !crcOk f then .drop .crc
  else
    match addrs.findIdx? (· == f.getD 0 0) with
    | none => .drop .address
    | some k => .accept k

end Sys2Proof.Machine
end

