-- ==== Sys2Proof/Machine/State.lean ====
section
/-! DEFINITION. Everything the machine holds: the tuple of spec rule R20, and beside it the environment as plain
data (the events still to come, the bytes emitted, the host's replies). -/

namespace Sys2Proof.Machine

/-- RegisterCategory (R22). -/
inductive Category where
  | coil | discreteInput | inputRegister | holdingRegister
  deriving DecidableEq, Repr

/-- The five states of the Slave Dispatcher and of the Server's lifecycle (R27). -/
inductive DispState where
  | idle | awaitingRequest | processing | responding | stopped
  deriving DecidableEq, Repr

/-- One address space of a Slave: (address, value) pairs in one canonical form (`Memory.wf`); an address that is
not listed holds the initial value of its kind (R40, R60; log entries 5 and 13).  The unit is one register or one
bit: there is no byte addressing (R60). -/
abbrev Memory (α : Type) := List (Nat × α)

/-- The canonical form: addresses strictly rising, no pair that holds what an unlisted address reads as. -/
abbrev Memory.wf {α : Type} (init : α) (m : Memory α) : Prop :=
  m.Pairwise (fun c d => c.1 < d.1) ∧ ∀ c ∈ m, c.2 ≠ init

/-- A row of a Slave's block table: name, category, start and length (R21, R34).  Its values stand in the address
space of its category. -/
structure Block where
  name   : String
  cat    : Category
  start  : Nat
  length : Nat
  deriving DecidableEq, Repr

/-- A Slave: its address, its block table, and its Register Store, one address space per category (R23, R60). -/
structure Slave where
  addr      : Byte
  blocks    : List Block
  coils     : Memory Bool
  discretes : Memory Bool
  inputs    : Memory Word
  holdings  : Memory Word
  deriving DecidableEq, Repr

/-- The complete state of one Server (R20: "Nothing else is state").  `NSLAVES` is the length of `slaves`. -/
structure Server where
  /-- `disp_state` (R27). -/
  dispState : DispState
  /-- `rx_buf[0 .. MAX_FRAME-1]` (R28, R61). -/
  rxBuf     : List Byte
  /-- `rx_len` (R28). -/
  rxLen     : Nat
  /-- `resync` (R29). -/
  resync    : Bool
  /-- `gap_timer` (R30, R280). -/
  gapTimer  : Nat
  /-- `cur_slave` (R31). -/
  curSlave  : Nat
  /-- `tx_buf[0 .. MAX_FRAME-1]` (R32, R61). -/
  txBuf     : List Byte
  /-- `tx_len` (R32). -/
  txLen     : Nat
  /-- `tx_pos` (R32). -/
  txPos     : Nat
  /-- `SLAVES` (R23, R34). -/
  slaves    : List Slave
  deriving DecidableEq, Repr

/-- The `value_or_sequence` of `set_values` (R233). -/
inductive Values where
  | scalar (v : Int)
  | sequence (vs : List Int)
  deriving DecidableEq, Repr

/-- The host's operations (R117, R231 to R238).  A Slave is named by its slave address (R285; log entry 14);
`chanAvailable` is the environment input `chan_available` of `start()` (R234, R37). -/
inductive HostOp where
  | addSlave (address : Int)
  | addBlock (slave : Nat) (name : String) (cat : Category) (start length : Int)
  | setValues (slave : Nat) (name : String) (address : Int) (vals : Values)
  | getBlock (slave : Nat) (name : String)
  | start (chanAvailable : Bool)
  | stop
  | peek (slave : Nat) (cat : Category) (address count : Nat)
  deriving DecidableEq, Repr

/-- The events (R13, R272, R281).  `process` stands for the internal event's turn (log entry 2). -/
inductive Event where
  | rxByte (b : Byte)
  | silence
  | tick
  | txReady
  | txDrained
  | process
  | host (op : HostOp)
  deriving DecidableEq, Repr

/-- How a host operation fails (R236, R270). -/
inductive HostFailure where
  | configError
  | resourceError
  | preconditionViolation
  | addressOutOfRange
  deriving DecidableEq, Repr

/-- Values read from the Store: bits for the bit categories, words for the others (R26, R70). -/
inductive CellValues where
  | bits (vs : List Bool)
  | words (vs : List Word)
  deriving DecidableEq, Repr

/-- What a host operation returns to the host (R270; log entry 17). -/
inductive Reply where
  /-- The operation was applied. -/
  | ok
  /-- The values `peek` read (R236). -/
  | values (vs : CellValues)
  /-- The block `get_block` found, with its values (R238). -/
  | block (b : Block) (vs : CellValues)
  /-- The operation failed and changed nothing (R270). -/
  | failed (f : HostFailure)
  deriving DecidableEq, Repr

/-- The machine and its environment.  `server` is the hardware's state (R20); `inbox` holds the events to come, the
next one first; `wire` the bytes emitted so far and `replies` what the host's operations returned so far, the first
one first (R12, R13; log entry 1). -/
structure State where
  server  : Server
  inbox   : List Event
  wire    : List Byte
  replies : List Reply
  deriving DecidableEq, Repr

/-- Why the machine stops.  Each names a state that no run reaches (the invariant of Safety.lean rules them all
out), where the spec's pseudocode reads or writes a place that does not exist; stopping there is safe (log
entry 15). -/
inductive Fault where
  /-- Raised by the Process step when `cur_slave` names no Slave (R31).  Safe. -/
  | noCurrentSlave
  /-- Raised by the Process step when the frame holds no PDU byte (R110 needs one).  Safe. -/
  | emptyPdu
  /-- Raised by `RxByte` when `rx_len` is not below `MAX_FRAME` (R131: it always is).  Safe. -/
  | rxBufferOverrun
  /-- Raised by `TxReady` when `tx_pos` lies outside `tx_buf` (R32: it never does).  Safe. -/
  | txBufferOverrun
  deriving DecidableEq, Repr

/-- Why the machine has no next state for an instruction. -/
inductive Refusal where
  /-- Raised by exec's arm of an instruction that has no meaning yet.  Safe. -/
  | notModelled (mnemonic : String)
  /-- Raised by the meanings of the responses for a term that is no response of R97 to R101 (a byte count or an
  exception code that no response has): the hardware never builds one.  Safe (log entry 11). -/
  | illFormedResponse
  deriving DecidableEq, Repr

/-- A Server right after its creation (R40, R230, R291).  The contents of the two buffers and `cur_slave`, which
R40 leaves unspecified, are 0: DESIGN CHOICE (log entries 6 and 7; unsafe). -/
def Server.created : Server where
  dispState := .idle
  rxBuf := List.replicate Config.maxFrame 0
  rxLen := 0
  resync := false
  gapTimer := 0
  curSlave := 0
  txBuf := List.replicate Config.maxFrame 0
  txLen := 0
  txPos := 0
  slaves := []

/-- Reset is the creation of the Server (R40, R290), before any event. -/
def State.reset : State where
  server := Server.created
  inbox := []
  wire := []
  replies := []

end Sys2Proof.Machine
end

