-- ==== Sys2Proof/Machine/Operands.lean ====
section
/-! DEFINITION. The operand forms: ranges of addresses and the block table that covers them (R24, R69, R70), reading
and writing one address space (R70, R71), and the packing of bits (R165).  The bytes of words stand in Decode.lean. -/

namespace Sys2Proof.Machine

/-- `1 <= count <= limit` (R111). -/
def legalCount (limit count : Nat) : Bool := decide (1 ≤ count ∧ count ≤ limit)

/-- The value at an address of a space; an address not listed holds the initial value (R40). -/
def Memory.read {α : Type} (init : α) : Memory α → Nat → α
  | [], _ => init
  | (k, v) :: rest, a => if k = a then v else Memory.read init rest a

/-- `n` consecutive values from `a` on, in ascending address order (R67, R70). -/
def Memory.readSeq {α : Type} (init : α) (m : Memory α) (a n : Nat) : List α :=
  (List.range n).map fun i => Memory.read init m (a + i)

/-- One value stored; the canonical form is kept: the initial value is not listed. -/
def Memory.write {α : Type} [DecidableEq α] (init : α) : Memory α → Nat → α → Memory α
  | [], a, v => if v = init then [] else [(a, v)]
  | (k, w) :: rest, a, v =>
    if a < k then (if v = init then (k, w) :: rest else (a, v) :: (k, w) :: rest)
    else if a = k then (if v = init then rest else (a, v) :: rest)
    else (k, w) :: Memory.write init rest a v

/-- A sequence of values stored at consecutive addresses (R71). -/
def Memory.writeSeq {α : Type} [DecidableEq α] (init : α) (m : Memory α) (a : Nat) : List α → Memory α
  | [] => m
  | v :: vs => Memory.writeSeq init (Memory.write init m a v) (a + 1) vs

/-- Every address of `[start, start + length)` back at the initial value (R232: the values of a new block). -/
def Memory.clear {α : Type} (m : Memory α) (start length : Nat) : Memory α :=
  m.filter fun c => !decide (start ≤ c.1 ∧ c.1 < start + length)

/-- The block covers the address in the category (R21, R24). -/
def Block.covers (b : Block) (cat : Category) (a : Nat) : Bool :=
  decide (b.cat = cat) && decide (b.start ≤ a ∧ a < b.start + b.length)

/-- `covered(s, cat, a)`: exactly one block of the category covers the address (R24). -/
def Slave.covered (sl : Slave) (cat : Category) (a : Nat) : Bool :=
  decide (a ≤ 0xFFFF) && decide (sl.blocks.countP (Block.covers · cat a) = 1)

/-- Every one of the `n` addresses from `a` on is covered; the range never wraps (R69, R70). -/
def Slave.coversRange (sl : Slave) (cat : Category) (a n : Nat) : Bool :=
  (List.range n).all fun i => sl.covered cat (a + i)

/-- `pack_bits(v)`, data byte `j`: bit `k` is `v[8j + k]`, 0 past the end (R64, R165). -/
def packByte (v : List Bool) (j : Nat) : Byte :=
  BitVec.ofNat 8 (((List.range 8).map fun k => if v.getD (8 * j + k) false then 2 ^ k else 0).sum)

/-- `pack_bits(v)` (R165). -/
def packBits (v : List Bool) : List Byte := (List.range ((v.length + 7) / 8)).map (packByte v)

end Sys2Proof.Machine
end

