-- ==== Sys2Proof/Machine/Ops.lean ====
section
/-! DEFINITION. The named operations over the Register Store and the transmit buffer, answering with an exception
and the return from it, and the course every request takes (R70, R71, R204, R205, R262, R268). -/

namespace Sys2Proof.Machine

/-! ## The Register Store -/

/-- `MemRead(s, cat, a, n)` over the space of the category: the values, or AddressOutOfRange (R70, R72). -/
def Slave.memRead {α : Type} (sl : Slave) (cat : Category) (init : α) (m : Memory α) (a n : Nat) :
    Option (List α) :=
  if sl.coversRange cat a n then some (Memory.readSeq init m a n) else none

/-- `MemRead(s, Coil, a, n)` (R83, R161). -/
def Slave.readCoils (sl : Slave) (a n : Nat) : Option (List Bool) :=
  sl.memRead .coil Config.initBit sl.coils a n

/-- `MemRead(s, DiscreteInput, a, n)` (R83, R162). -/
def Slave.readDiscretes (sl : Slave) (a n : Nat) : Option (List Bool) :=
  sl.memRead .discreteInput Config.initBit sl.discretes a n

/-- `MemRead(s, InputRegister, a, n)` (R83, R164). -/
def Slave.readInputs (sl : Slave) (a n : Nat) : Option (List Word) :=
  sl.memRead .inputRegister Config.initReg sl.inputs a n

/-- `MemRead(s, HoldingRegister, a, n)` (R83, R163). -/
def Slave.readHoldings (sl : Slave) (a n : Nat) : Option (List Word) :=
  sl.memRead .holdingRegister Config.initReg sl.holdings a n

/-- `MemWrite(s, HoldingRegister, a, vals)`: all of the values or AddressOutOfRange and none (R71, R83). -/
def Slave.writeHoldings (sl : Slave) (a : Nat) (vals : List Word) : Option Slave :=
  if sl.coversRange .holdingRegister a vals.length then
    some { sl with holdings := Memory.writeSeq Config.initReg sl.holdings a vals }
  else none

/-- The Slave the frame under execution is addressed to (R31, R202). -/
def Server.currentSlave (v : Server) : Option Slave := v.slaves[v.curSlave]?

/-- The current Slave replaced by what a write left of it; no other Slave is touched (R202, R285). -/
def Server.storeSlave (v : Server) (sl : Slave) : Server :=
  { v with slaves := v.slaves.set v.curSlave sl }

/-- The index of the Slave with this address (R23, R285). -/
def Server.slaveIndex (v : Server) (address : Nat) : Option Nat :=
  v.slaves.findIdx? fun sl => decide (sl.addr.toNat = address)

/-- The Server owns the serial channel: between `start()` and `stop()` (R27, R281, R284). -/
def Server.ownsChannel (v : Server) : Bool :=
  match v.dispState with
  | .awaitingRequest => true
  | .processing => true
  | .responding => true
  | .idle => false
  | .stopped => false

/-! ## The frame and its response -/

/-- The frame in the receive buffer (R28). -/
def Server.frame (v : Server) : List Byte := v.rxBuf.take v.rxLen

/-- The PDU of a frame `f` of `n` bytes: `f[1 .. n-3]` (R90). -/
def pduOf (f : List Byte) : List Byte := (f.take (f.length - 2)).drop 1

/-- The frame of a PDU: address, PDU, CRC low byte first; the same in both directions (R90, R102). -/
def frameOf (addr : Byte) (pdu : List Byte) : List Byte := addr :: pdu ++ crcBytes (addr :: pdu)

/-- The second half of the Process step: the response frame into `tx_buf`, the receive buffer empty, on to
`Responding` (R204). -/
def Server.load (v : Server) (addr : Byte) (pdu : List Byte) : Server :=
  { v with
    txBuf := frameOf addr pdu ++ v.txBuf.drop (frameOf addr pdu).length
    txLen := (frameOf addr pdu).length
    txPos := 0
    rxLen := 0
    dispState := .responding }

/-- The response PDU is framed with the current Slave's address and handed to the transmitter (R102, R204). -/
def respond (pdu : List Byte) (s : State) : Host.Outcome State Fault Refusal :=
  match s.server.currentSlave with
  | none => .fault .noCurrentSlave
  | some sl => .next { s with server := s.server.load sl.addr pdu }

/-! ## Exceptions -/

/-- The four Modbus exceptions (R261). -/
inductive ExceptionCode where
  | illegalFunction | illegalDataAddress | illegalDataValue | slaveDeviceFailure
  deriving DecidableEq, Repr

/-- The exceptions' numbers (R261, D5). -/
def ExceptionCode.number : ExceptionCode → Byte
  | .illegalFunction => 0x01
  | .illegalDataAddress => 0x02
  | .illegalDataValue => 0x03
  | .slaveDeviceFailure => 0x04

/-- `[fc OR 0x80, code]` (R101, R262). -/
def exceptionPdu (fc : Byte) (code : ExceptionCode) : List Byte := [fc ||| 0x80, code.number]

/-- `raise Exception(code)`: nothing is saved, no mode changes, the Store stays as it is, and the exception
response is sent like any response (R262, R265). -/
def raiseException (fc : Byte) (code : ExceptionCode) (s : State) : Host.Outcome State Fault Refusal :=
  respond (exceptionPdu fc code) s

/-- The return, from an exception as from any response: the transmit state is cleared and the Framer accepts
bytes again (R208, R268). -/
def Server.resume (v : Server) : Server := { v with txLen := 0, txPos := 0, dispState := .awaitingRequest }

/-! ## The course of a request -/

/-- `execute(s, pdu)` of a decoded request and the response to it (R204, R205).  `legal` is the test of its count
(R111), `work` its access to the Store, which answers the response PDU and what is left of the Slave, or nothing for
AddressOutOfRange; `failure` is `internal_error(request)`.  The first check that fails decides the exception, and
with any exception the Store is as before (R205, R264, R288). -/
def serveRequest (fc : Byte) (legal failure : Bool) (work : Slave → Option (List Byte × Slave)) (s : State) :
    Host.Outcome State Fault Refusal :=
  match s.server.currentSlave with
  | none => .fault .noCurrentSlave
  | some sl =>
    if legal then
      match work sl with
      | none => raiseException fc .illegalDataAddress s
      | some (pdu, sl') =>
        if failure then raiseException fc .slaveDeviceFailure s
        else respond pdu { s with server := s.server.storeSlave sl' }
    else raiseException fc .illegalDataValue s

/-- A response is carried out by sending it (R102, R204); a term that is no response of R97 to R101 is refused
(log entry 11). -/
def sendResponse (rsp : Instr) (s : State) : Host.Outcome State Fault Refusal :=
  if rsp.wellFormed then respond (encode rsp) s else .refused .illFormedResponse

end Sys2Proof.Machine
end

