-- ==== Sys2Proof/Machine/Framer.lean ====
section
/-! DEFINITION. The Transport Framer with the Frame Validator (R130 to R142), and the gap timer (R280 to R282). -/

namespace Sys2Proof.Machine

/-- `FrameComplete()`: a frame that is too short, has a wrong CRC or is addressed to no owned Slave is dropped in
silence; any other goes to `Processing` (R142, R202, R266). -/
def Server.completeFrame (v : Server) : Server :=
  match validate (v.slaves.map Slave.addr) v.frame with
  | .drop _ => { v with rxLen := 0 }
  | .accept k => { v with curSlave := k, dispState := .processing }

/-- A byte appended to the frame being received (R131). -/
def Server.appendByte (v : Server) (b : Byte) : Server :=
  { v with rxBuf := v.rxBuf.set v.rxLen b, rxLen := v.rxLen + 1, gapTimer := 0 }

/-- A byte taken into the frame; the frame is complete at `MAX_FRAME` bytes, and the rest of the run is then
discarded (R131, R136). -/
def Server.acceptByte (v : Server) (b : Byte) : Server :=
  if v.rxLen + 1 = Config.maxFrame then { v.appendByte b with resync := true }.completeFrame
  else v.appendByte b

/-- `RxByte(b)`: accepted, or discarded while a silence is awaited or a request is in flight; without effect while
the Server does not own the channel (R131 to R134). -/
def receiveByte (b : Byte) (s : State) : Host.Outcome State Fault Refusal :=
  match s.server.dispState with
  | .awaitingRequest =>
    if s.server.resync then .next { s with server := { s.server with gapTimer := 0 } }
    else if s.server.rxLen < Config.maxFrame then .next { s with server := s.server.acceptByte b }
    else .fault .rxBufferOverrun
  | .processing => .next { s with server := { s.server with resync := true, gapTimer := 0 } }
  | .responding => .next { s with server := { s.server with resync := true, gapTimer := 0 } }
  | .idle => .next s
  | .stopped => .next s

/-- `Silence`: it ends the wait of `resync`, and completes a frame that has begun (R135, R137). -/
def Server.silence (v : Server) : Server :=
  match v.dispState with
  | .awaitingRequest =>
    if v.rxLen = 0 then { v with resync := false } else { v with resync := false }.completeFrame
  | .processing => { v with resync := false }
  | .responding => { v with resync := false }
  | .idle => v
  | .stopped => v

/-- `Tick`: one period of the gap timer; the tick on which the gap comes to exceed `T_SILENT_TICKS` raises
`Silence`, and the timer saturates there (R281, R282). -/
def Server.tick (v : Server) : Server :=
  if v.ownsChannel && decide (v.gapTimer ≤ Config.tSilentTicks) then
    if v.gapTimer = Config.tSilentTicks then { v with gapTimer := v.gapTimer + 1 }.silence
    else { v with gapTimer := v.gapTimer + 1 }
  else v

end Sys2Proof.Machine
end

