-- ==== Sys2Proof/Machine/HostOps.lean ====
section
/-! DEFINITION. The host's operations: configuration, lifecycle, introspection (R230 to R241).  An operation that
fails answers its failure and leaves the Server as it was (R270). -/

namespace Sys2Proof.Machine

/-- A new Slave: no blocks (R231). -/
def Slave.created (addr : Byte) : Slave :=
  { addr := addr, blocks := [], coils := [], discretes := [], inputs := [], holdings := [] }

/-- A Slave with this address, and its index (R23, R285). -/
def Server.slaveAt (v : Server) (address : Nat) : Option (Nat × Slave) :=
  (v.slaveIndex address).bind fun k => v.slaves[k]?.map fun sl => (k, sl)

/-- `add_slave(address)` in `Idle` (R231). -/
def Server.addSlave (address : Int) (v : Server) : Server × Reply :=
  if v.dispState ≠ .idle then (v, .failed .preconditionViolation)
  else if address < Config.addrMin ∨ Config.addrMax < address ∨ (v.slaveIndex address.toNat).isSome then
    (v, .failed .configError)
  else ({ v with slaves := v.slaves ++ [Slave.created (BitVec.ofNat 8 address.toNat)] }, .ok)

/-- Every cell of the category in `[start, start + length)` at its initial value (R232). -/
def Slave.clearCells (sl : Slave) (cat : Category) (start length : Nat) : Slave :=
  match cat with
  | .coil => { sl with coils := Memory.clear sl.coils start length }
  | .discreteInput => { sl with discretes := Memory.clear sl.discretes start length }
  | .inputRegister => { sl with inputs := Memory.clear sl.inputs start length }
  | .holdingRegister => { sl with holdings := Memory.clear sl.holdings start length }

/-- Two blocks share an address of one category (R232, D12). -/
def Block.overlaps (b c : Block) : Bool :=
  decide (b.cat = c.cat) && decide (b.start < c.start + c.length ∧ c.start < b.start + b.length)

/-- The block of this name (R238). -/
def Slave.blockNamed (sl : Slave) (name : String) : Option Block :=
  sl.blocks.find? fun b => decide (b.name = name)

/-- A block may join the table: a new name, no overlap in its category, inside the 16-bit addresses (R232, D13). -/
def Slave.admits (sl : Slave) (b : Block) : Bool :=
  decide (1 ≤ b.length ∧ b.start + b.length ≤ 65536) && (sl.blockNamed b.name).isNone
    && !sl.blocks.any (Block.overlaps b)

/-- `add_block` on a Slave, or nothing where it is a ConfigError (R232). -/
def Slave.addBlock (sl : Slave) (name : String) (cat : Category) (start length : Int) : Option Slave :=
  let b : Block := { name := name, cat := cat, start := start.toNat, length := length.toNat }
  if 0 ≤ start ∧ sl.admits b then
    some { sl.clearCells cat b.start b.length with blocks := sl.blocks ++ [b] }
  else none

/-- `add_block(name, category, start_address, length)` in `Idle` (R232). -/
def Server.addBlock (slave : Nat) (name : String) (cat : Category) (start length : Int) (v : Server) :
    Server × Reply :=
  if v.dispState ≠ .idle then (v, .failed .preconditionViolation)
  else
    match v.slaveAt slave with
    | none => (v, .failed .configError)
    | some (k, sl) =>
      match sl.addBlock name cat start length with
      | none => (v, .failed .configError)
      | some sl' => ({ v with slaves := v.slaves.set k sl' }, .ok)

/-- A scalar is the sequence of one value (R233). -/
def Values.toList : Values → List Int
  | .scalar v => [v]
  | .sequence vs => vs

/-- Register values: all in 0..65535, or nothing (R233, D25). -/
def toWords (vals : List Int) : Option (List Word) :=
  if vals.all fun v => decide (0 ≤ v ∧ v ≤ 65535) then some (vals.map fun v => BitVec.ofNat 16 v.toNat) else none

/-- Bit values: all 0 or 1, or nothing (R233, D25). -/
def toBits (vals : List Int) : Option (List Bool) :=
  if vals.all fun v => decide (v = 0 ∨ v = 1) then some (vals.map fun v => decide (v = 1)) else none

/-- Values stored from `a` on in the space of the category, or nothing where one is outside its domain (R233). -/
def Slave.storeValues (sl : Slave) (cat : Category) (a : Nat) (vals : List Int) : Option Slave :=
  match cat with
  | .coil => (toBits vals).map fun vs => { sl with coils := Memory.writeSeq Config.initBit sl.coils a vs }
  | .discreteInput =>
    (toBits vals).map fun vs => { sl with discretes := Memory.writeSeq Config.initBit sl.discretes a vs }
  | .inputRegister => (toWords vals).map fun vs => { sl with inputs := Memory.writeSeq Config.initReg sl.inputs a vs }
  | .holdingRegister =>
    (toWords vals).map fun vs => { sl with holdings := Memory.writeSeq Config.initReg sl.holdings a vs }

/-- `set_values` on a Slave, or nothing where it is a ConfigError (R233). -/
def Slave.setValues (sl : Slave) (name : String) (address : Int) (vals : List Int) : Option Slave :=
  match sl.blockNamed name with
  | none => none
  | some b =>
    if (b.start : Int) ≤ address ∧ address + vals.length ≤ b.start + b.length then
      sl.storeValues b.cat address.toNat vals
    else none

/-- `set_values(block_name, address, value_or_sequence)` in `Idle`: all or nothing (R233). -/
def Server.setValues (slave : Nat) (name : String) (address : Int) (vals : Values) (v : Server) : Server × Reply :=
  if v.dispState ≠ .idle then (v, .failed .preconditionViolation)
  else
    match v.slaveAt slave with
    | none => (v, .failed .configError)
    | some (k, sl) =>
      match sl.setValues name address vals.toList with
      | none => (v, .failed .configError)
      | some sl' => ({ v with slaves := v.slaves.set k sl' }, .ok)

/-- The values of `n` cells of a category from `a` on (R25, R26). -/
def Slave.cells (sl : Slave) (cat : Category) (a n : Nat) : CellValues :=
  match cat with
  | .coil => .bits (Memory.readSeq Config.initBit sl.coils a n)
  | .discreteInput => .bits (Memory.readSeq Config.initBit sl.discretes a n)
  | .inputRegister => .words (Memory.readSeq Config.initReg sl.inputs a n)
  | .holdingRegister => .words (Memory.readSeq Config.initReg sl.holdings a n)

/-- `get_block(name)`: the block and its values, in every state (R238). -/
def Server.getBlock (slave : Nat) (name : String) (v : Server) : Reply :=
  match v.slaveAt slave with
  | none => .failed .configError
  | some (_, sl) =>
    match sl.blockNamed name with
    | none => .failed .configError
    | some b => .block b (sl.cells b.cat b.start b.length)

/-- `start()` (R234). -/
def Server.start (chanAvailable : Bool) (v : Server) : Server × Reply :=
  if v.dispState ≠ .idle then (v, .failed .preconditionViolation)
  else if chanAvailable then
    ({ v with
        rxLen := 0, resync := false, gapTimer := 0, txLen := 0, txPos := 0
        dispState := .awaitingRequest }, .ok)
  else (v, .failed .resourceError)

/-- `stop()`: whatever is in flight is abandoned, the Store is left as it is (R235, C2, C8). -/
def Server.stop (v : Server) : Server × Reply :=
  if v.ownsChannel then
    ({ v with rxLen := 0, txLen := 0, txPos := 0, resync := false, dispState := .stopped }, .ok)
  else (v, .failed .preconditionViolation)

/-- `peek(category, address, count)`: what MemRead reads in the current state (R236). -/
def Server.peek (slave : Nat) (cat : Category) (address count : Nat) (v : Server) : Reply :=
  match v.slaveAt slave with
  | none => .failed .addressOutOfRange
  | some (_, sl) =>
    if sl.coversRange cat address count then .values (sl.cells cat address count)
    else .failed .addressOutOfRange

/-- A host operation: what is left of the Server, and what the host is told (R239, R270). -/
def Server.hostOp (v : Server) : HostOp → Server × Reply
  | .addSlave address => v.addSlave address
  | .addBlock slave name cat start length => v.addBlock slave name cat start length
  | .setValues slave name address vals => v.setValues slave name address vals
  | .getBlock slave name => (v, v.getBlock slave name)
  | .start chanAvailable => v.start chanAvailable
  | .stop => v.stop
  | .peek slave cat address count => (v, v.peek slave cat address count)

end Sys2Proof.Machine
end

