-- ==== Sys2Proof/Machine/ReadRequests.lean ====
section
/-! DEFINITION. The four read requests (R160 to R166). -/

namespace Sys2Proof.Machine

/-- Read Coils (R161). -/
def execRdCoils (addr count : Word) (s : State) : Host.Outcome State Fault Refusal :=
  serveRequest 0x01 (legalCount Config.maxReadBits count.toNat) (Config.internalError (.rdCoils addr count))
    (fun sl => (sl.readCoils addr.toNat count.toNat).map fun v => (encode (.rspRdCoils (packBits v)), sl)) s

/-- Read Discrete Inputs (R162). -/
def execRdDiscrete (addr count : Word) (s : State) : Host.Outcome State Fault Refusal :=
  serveRequest 0x02 (legalCount Config.maxReadBits count.toNat) (Config.internalError (.rdDiscrete addr count))
    (fun sl => (sl.readDiscretes addr.toNat count.toNat).map fun v => (encode (.rspRdDiscrete (packBits v)), sl)) s

/-- Read Holding Registers (R163). -/
def execRdHolding (addr count : Word) (s : State) : Host.Outcome State Fault Refusal :=
  serveRequest 0x03 (legalCount Config.maxReadRegs count.toNat) (Config.internalError (.rdHolding addr count))
    (fun sl => (sl.readHoldings addr.toNat count.toNat).map fun v => (encode (.rspRdHolding v), sl)) s

/-- Read Input Registers (R164). -/
def execRdInput (addr count : Word) (s : State) : Host.Outcome State Fault Refusal :=
  serveRequest 0x04 (legalCount Config.maxReadRegs count.toNat) (Config.internalError (.rdInput addr count))
    (fun sl => (sl.readInputs addr.toNat count.toNat).map fun v => (encode (.rspRdInput v), sl)) s

end Sys2Proof.Machine
end

