-- ==== Sys2Proof/Machine/Responses.lean ====
section
/-! DEFINITION. The responses (R97 to R102): the hardware carries one out by sending it, the second half of the
Process step (R204; log entry 11). -/

namespace Sys2Proof.Machine

/-- Send a success response to Read Coils (R98). -/
def execRspRdCoils (data : List Byte) (s : State) : Host.Outcome State Fault Refusal :=
  sendResponse (.rspRdCoils data) s

/-- Send a success response to Read Discrete Inputs (R98). -/
def execRspRdDiscrete (data : List Byte) (s : State) : Host.Outcome State Fault Refusal :=
  sendResponse (.rspRdDiscrete data) s

/-- Send a success response to Read Holding Registers (R97). -/
def execRspRdHolding (vals : List Word) (s : State) : Host.Outcome State Fault Refusal :=
  sendResponse (.rspRdHolding vals) s

/-- Send a success response to Read Input Registers (R97). -/
def execRspRdInput (vals : List Word) (s : State) : Host.Outcome State Fault Refusal :=
  sendResponse (.rspRdInput vals) s

/-- Send a success response to Write Single Register (R99). -/
def execRspWrSingle (addr value : Word) (s : State) : Host.Outcome State Fault Refusal :=
  sendResponse (.rspWrSingle addr value) s

/-- Send a success response to Write Multiple Registers (R100). -/
def execRspWrMulti (addr count : Word) (s : State) : Host.Outcome State Fault Refusal :=
  sendResponse (.rspWrMulti addr count) s

/-- Send an exception response (R101, R262). -/
def execRspException (fc : BitVec 7) (code : Byte) (s : State) : Host.Outcome State Fault Refusal :=
  sendResponse (.rspException fc code) s

end Sys2Proof.Machine
end

