-- ==== Sys2Proof/Machine/UnsupportedRequests.lean ====
section
/-! DEFINITION. Every function code outside the six (R112, R206). -/

namespace Sys2Proof.Machine

/-- An unsupported function code is answered with IllegalFunction, whatever the payload (R112). -/
def execUnsupported (fc : Byte) (_payload : List Byte) (s : State) : Host.Outcome State Fault Refusal :=
  raiseException fc .illegalFunction s

end Sys2Proof.Machine
end

