-- ==== Sys2Proof/Machine/WriteRequests.lean ====
section
/-! DEFINITION. The two write requests (R180 to R184). -/

namespace Sys2Proof.Machine

/-- Write Single Register (R181): any 16-bit value is legal (R180); the response echoes the request (R99). -/
def execWrSingle (addr value : Word) (s : State) : Host.Outcome State Fault Refusal :=
  serveRequest 0x06 true (Config.internalError (.wrSingle addr value))
    (fun sl => (sl.writeHoldings addr.toNat [value]).map fun sl' => (encode (.rspWrSingle addr value), sl')) s

/-- Write Multiple Registers (R182): all or nothing (R71); the response repeats address and count (R100). -/
def execWrMulti (addr : Word) (vals : List Word) (s : State) : Host.Outcome State Fault Refusal :=
  serveRequest 0x10 (legalCount Config.maxWriteRegs vals.length) (Config.internalError (.wrMulti addr vals))
    (fun sl => (sl.writeHoldings addr.toNat vals).map fun sl' =>
      (encode (.rspWrMulti addr (BitVec.ofNat 16 vals.length)), sl')) s

end Sys2Proof.Machine
end

