-- ==== Sys2Proof/Machine/Dispatch.lean ====
section
/-! DEFINITION. One arm per instruction (R205). -/

namespace Sys2Proof.Machine

def exec (i : Instr) (s : State) : Host.Outcome State Fault Refusal :=
  match i with
  | .rdCoils addr count => Sys2Proof.Machine.execRdCoils addr count s
  | .rdDiscrete addr count => Sys2Proof.Machine.execRdDiscrete addr count s
  | .rdHolding addr count => Sys2Proof.Machine.execRdHolding addr count s
  | .rdInput addr count => Sys2Proof.Machine.execRdInput addr count s
  | .wrSingle addr value => Sys2Proof.Machine.execWrSingle addr value s
  | .wrMulti addr vals => Sys2Proof.Machine.execWrMulti addr vals s
  | .unsupported fc payload => Sys2Proof.Machine.execUnsupported fc payload s
  | .rspRdCoils data => Sys2Proof.Machine.execRspRdCoils data s
  | .rspRdDiscrete data => Sys2Proof.Machine.execRspRdDiscrete data s
  | .rspRdHolding vals => Sys2Proof.Machine.execRspRdHolding vals s
  | .rspRdInput vals => Sys2Proof.Machine.execRspRdInput vals s
  | .rspWrSingle addr value => Sys2Proof.Machine.execRspWrSingle addr value s
  | .rspWrMulti addr count => Sys2Proof.Machine.execRspWrMulti addr count s
  | .rspException fc code => Sys2Proof.Machine.execRspException fc code s

end Sys2Proof.Machine
end

