-- ==== Sys2Proof/Machine/Process.lean ====
section
/-! DEFINITION. The Process step: the frame in the receive buffer decoded and executed (R204, R205). -/

namespace Sys2Proof.Machine

/-- `Process` (R204): in `Processing` the PDU is decoded and executed, a decode failure being answered with
IllegalDataValue (R110, R205); in every other state the event has no effect (R201). -/
def process (s : State) : Host.Outcome State Fault Refusal :=
  if s.server.dispState = .processing then
    match decode (pduOf s.server.frame) with
    | .ok i => exec i s
    | .error .emptyPdu => .fault .emptyPdu
    | .error _ => raiseException ((pduOf s.server.frame).getD 0 0) .illegalDataValue s
  else .next s

end Sys2Proof.Machine
end

