-- ==== Sys2Proof/Machine/Transmit.lean ====
section
/-! DEFINITION. The `Responding` state: the response leaves byte by byte (R207, R208). -/

namespace Sys2Proof.Machine

/-- `TxReady`: the next byte of the response is emitted; without effect elsewhere or when none is left (R207). -/
def transmitByte (s : State) : Host.Outcome State Fault Refusal :=
  if s.server.dispState = .responding ∧ s.server.txPos < s.server.txLen then
    match s.server.txBuf[s.server.txPos]? with
    | none => .fault .txBufferOverrun
    | some b => .next { s with server := { s.server with txPos := s.server.txPos + 1 }, wire := s.wire ++ [b] }
  else .next s

/-- `TxDrained`: when the whole response has left, the Framer accepts bytes again (R208). -/
def Server.transmitDrained (v : Server) : Server :=
  if v.dispState = .responding ∧ v.txPos = v.txLen then v.resume else v

end Sys2Proof.Machine
end

