-- ==== Sys2Proof/Machine/Events.lean ====
section
/-! DEFINITION. One transition per event (R13, R201), the turn of a machine whose environment offers none, and how
a request is placed for the next Process step. -/

namespace Sys2Proof.Machine

/-- What an event does (R201; for the host's operations R239). -/
def handleEvent (e : Event) (s : State) : Host.Outcome State Fault Refusal :=
  match e with
  | .rxByte b => receiveByte b s
  | .silence => .next { s with server := s.server.silence }
  | .tick => .next { s with server := s.server.tick }
  | .txReady => transmitByte s
  | .txDrained => .next { s with server := s.server.transmitDrained }
  | .process => process s
  | .host op =>
    .next { s with server := (s.server.hostOp op).1, replies := s.replies ++ [(s.server.hostOp op).2] }

/-- The next step: the first event of the inbox; when there is none, `Process` in the state that has it enabled, and
otherwise the machine waits as it is (R204, R301, R304; log entries 1 and 2). -/
def nextEvent (s : State) : Host.Outcome State Fault Refusal :=
  match s.inbox with
  | [] => process s
  | e :: rest => handleEvent e { s with inbox := rest }

/-- The Slaves of a Server, or one Slave of address 1 where it has none. -/
def Server.someSlaves (v : Server) : List Slave :=
  match v.slaves with
  | [] => [Slave.created 1]
  | sl :: rest => sl :: rest

/-- A Server in whose receive buffer the frame of a PDU stands, accepted for its first Slave (R142), so that the
next `Process` executes it (log entry 12). -/
def Server.placeRequest (v : Server) (pdu : List Byte) : Server :=
  let frame := frameOf ((v.someSlaves.map Slave.addr).getD 0 1) pdu
  { v with
    slaves := v.someSlaves
    curSlave := 0
    rxBuf := frame ++ v.rxBuf.drop frame.length
    rxLen := frame.length
    dispState := .processing }

end Sys2Proof.Machine
end

