-- ==== Sys2Proof/Machine/Step.lean ====
section
/-! DEFINITION. One step of the machine, and the host's way to place an instruction before it. -/

namespace Sys2Proof.Machine

/-- One step: one event (R13, R201). -/
def step (s : State) : Host.Outcome State Fault Refusal := nextEvent s

/-- The state with a table word's request placed where the next step executes it: its frame in the receive buffer,
accepted, and `Process` next (log entry 12). -/
def State.withFetchWord (s : State) (nbits w : Nat) : State :=
  { s with server := s.server.placeRequest (tablePdu nbits w), inbox := .process :: s.inbox }

end Sys2Proof.Machine
end

