-- ==== Sys2Proof/Safety.lean ====
section
/-! DEFINITION. The terms statements are made in: the invariant of rule R39, what an answer to a request is, what a
write leaves of a Slave, and which states of two runs look the same to one Slave. -/

namespace Sys2Proof.Machine

/-- A Slave as configuration leaves it (R39 I-6, I-7; R231, R232): a legal address, block names unique, blocks of
one category disjoint and inside the 16-bit addresses, and the four spaces in canonical form. -/
structure Slave.Inv (sl : Slave) : Prop where
  addrLegal : Config.addrMin ≤ sl.addr.toNat ∧ sl.addr.toNat ≤ Config.addrMax
  namesUnique : sl.blocks.Pairwise fun b c => b.name ≠ c.name
  blocksDisjoint : sl.blocks.Pairwise fun b c => b.overlaps c = false
  blocksBounded : ∀ b ∈ sl.blocks, 1 ≤ b.length ∧ b.start + b.length ≤ 65536
  coilsWf : Memory.wf Config.initBit sl.coils
  discretesWf : Memory.wf Config.initBit sl.discretes
  inputsWf : Memory.wf Config.initReg sl.inputs
  holdingsWf : Memory.wf Config.initReg sl.holdings

/-- The invariant of rule R39, with the sizes of the two buffers (R61), the range of the gap timer (R20) and
`rx_len < MAX_FRAME` while bytes are accepted (R131). -/
structure Server.Inv (v : Server) : Prop where
  rxBufSize : v.rxBuf.length = Config.maxFrame
  txBufSize : v.txBuf.length = Config.maxFrame
  rxEmpty : v.dispState = .idle ∨ v.dispState = .stopped ∨ v.dispState = .responding → v.rxLen = 0
  txEmpty : v.dispState ≠ .responding → v.txLen = 0 ∧ v.txPos = 0
  txBounded : v.txPos ≤ v.txLen ∧ v.txLen ≤ 255
  resyncEmpty : v.resync = true → v.dispState = .awaitingRequest → v.rxLen = 0
  rxRoom : v.dispState = .awaitingRequest → v.rxLen < Config.maxFrame
  accepted : v.dispState = .processing →
    Config.minFrame ≤ v.rxLen ∧ v.rxLen ≤ Config.maxFrame ∧ crcOk v.frame = true ∧
      v.currentSlave.map Slave.addr = v.rxBuf[0]?
  gapBounded : v.gapTimer ≤ Config.tSilentTicks + 1
  addrsDistinct : v.slaves.Pairwise fun a b => a.addr ≠ b.addr
  slavesOk : ∀ sl ∈ v.slaves, sl.Inv

/-- The invariant of the machine: that of its Server. -/
def State.Inv (s : State) : Prop := s.server.Inv

/-- `t` is `s` with the response `pdu` ready to be sent from the slave address `addr`, and all but the Register
Store otherwise as it was (R102, R204). -/
structure Answers (s t : State) (addr : Byte) (pdu : List Byte) : Prop where
  frame : t.server.txBuf.take t.server.txLen = addr :: pdu ++ crcBytes (addr :: pdu)
  txLen : t.server.txLen = pdu.length + 3
  txRest : t.server.txBuf.drop t.server.txLen = s.server.txBuf.drop t.server.txLen
  txPos : t.server.txPos = 0
  rxLen : t.server.rxLen = 0
  dispState : t.server.dispState = .responding
  rxBuf : t.server.rxBuf = s.server.rxBuf
  resync : t.server.resync = s.server.resync
  gapTimer : t.server.gapTimer = s.server.gapTimer
  curSlave : t.server.curSlave = s.server.curSlave
  inbox : t.inbox = s.inbox
  wire : t.wire = s.wire
  replies : t.replies = s.replies

/-- The value of a HoldingRegister address (R24). -/
def Slave.holding (sl : Slave) (a : Nat) : Word := Memory.read Config.initReg sl.holdings a

/-- `sl'` is `sl` with `vals` stored at the HoldingRegister addresses from `a` on and nothing else changed
(R71, R75, R180). -/
structure StoredHoldings (sl sl' : Slave) (a : Nat) (vals : List Word) : Prop where
  addr : sl'.addr = sl.addr
  blocks : sl'.blocks = sl.blocks
  coils : sl'.coils = sl.coils
  discretes : sl'.discretes = sl.discretes
  inputs : sl'.inputs = sl.inputs
  inside : ∀ i, ∀ h : i < vals.length, sl'.holding (a + i) = vals[i]
  outside : ∀ x, x < a ∨ a + vals.length ≤ x → sl'.holding x = sl.holding x

/-- What only the host can change: the slave addresses, the block tables, and the spaces no request writes
(R34, R83, R276). -/
def Server.hostOnly (v : Server) : List (Byte × List Block × Memory Bool × Memory Bool × Memory Word) :=
  v.slaves.map fun sl => (sl.addr, sl.blocks, sl.coils, sl.discretes, sl.inputs)

/-- The event is one of the host's operations (R272). -/
def Event.isHost : Event → Bool
  | .host _ => true
  | .rxByte _ => false
  | .silence => false
  | .tick => false
  | .txReady => false
  | .txDrained => false
  | .process => false

/-- Two states that differ only in the Slaves other than the current one (R285). -/
structure SameForCurrent (s t : State) : Prop where
  current : s.server.currentSlave = t.server.currentSlave
  others : { s.server with slaves := [] } = { t.server with slaves := [] }
  inbox : s.inbox = t.inbox
  wire : s.wire = t.wire
  replies : s.replies = t.replies

/-- The checks of the request decoder, rule R110, on the bytes of a PDU whose function code is supported: the
length of the PDU, the count, the byte count. -/
def pduLegal (p : List Byte) : Bool :=
  let fc := p.getD 0 0
  let count := (be16 (p.getD 3 0) (p.getD 4 0)).toNat
  let bc := (p.getD 5 0).toNat
  if fc = 0x01 ∨ fc = 0x02 then decide (p.length = 5 ∧ 1 ≤ count ∧ count ≤ 2000)
  else if fc = 0x03 ∨ fc = 0x04 then decide (p.length = 5 ∧ 1 ≤ count ∧ count ≤ 125)
  else if fc = 0x06 then decide (p.length = 5)
  else decide (6 ≤ p.length ∧ 1 ≤ count ∧ count ≤ 123 ∧ bc = 2 * count ∧ p.length = 6 + bc)

/-- `execute(s, pdu)`, rule R205 with R110, R161 to R164, R181 and R182, on the bytes of a PDU: the response PDU, and
the Slave after it.  Independent of the decoder and of the machine's instructions. -/
def execute (sl : Slave) (p : List Byte) : List Byte × Slave :=
  let fc := p.getD 0 0
  let addr := (be16 (p.getD 1 0) (p.getD 2 0)).toNat
  let count := (be16 (p.getD 3 0) (p.getD 4 0)).toNat
  let value := be16 (p.getD 3 0) (p.getD 4 0)
  let failed (code : Byte) : List Byte × Slave := ([fc ||| 0x80, code], sl)
  if supportedFc fc = false then failed 0x01
  else if pduLegal p = false then failed 0x03
  else if fc = 0x01 then
    if sl.coversRange .coil addr count then
      (fc :: BitVec.ofNat 8 ((count + 7) / 8) :: packBits (Memory.readSeq Config.initBit sl.coils addr count), sl)
    else failed 0x02
  else if fc = 0x02 then
    if sl.coversRange .discreteInput addr count then
      (fc :: BitVec.ofNat 8 ((count + 7) / 8) :: packBits (Memory.readSeq Config.initBit sl.discretes addr count), sl)
    else failed 0x02
  else if fc = 0x03 then
    if sl.coversRange .holdingRegister addr count then
      (fc :: BitVec.ofNat 8 (2 * count) :: regsBytes (Memory.readSeq Config.initReg sl.holdings addr count), sl)
    else failed 0x02
  else if fc = 0x04 then
    if sl.coversRange .inputRegister addr count then
      (fc :: BitVec.ofNat 8 (2 * count) :: regsBytes (Memory.readSeq Config.initReg sl.inputs addr count), sl)
    else failed 0x02
  else if fc = 0x06 then
    if sl.coversRange .holdingRegister addr 1 then
      (p, { sl with holdings := Memory.write Config.initReg sl.holdings addr value })
    else failed 0x02
  else
    if sl.coversRange .holdingRegister addr count then
      (p.take 5, { sl with holdings := Memory.writeSeq Config.initReg sl.holdings addr (wordsOf (p.drop 6)) })
    else failed 0x02

/-- The instruction answers with the exception response `[first, code]` and leaves the Store as it was (R262). -/
def AnswersException (i : Instr) (s : State) (sl : Slave) (first code : Byte) : Prop :=
  ∃ t, exec i s = .next t ∧ Answers s t sl.addr [first, code] ∧ t.server.slaves = s.server.slaves

/-- Every one of the `n` addresses from `a` on is covered in the category (R24, R70). -/
def Slave.CoversAll (sl : Slave) (cat : Category) (a n : Nat) : Prop :=
  ∀ i < n, sl.covered cat (a + i) = true

/-- What a cell of a new block holds (R40, R232). -/
def initialCell (cat : Category) : CellValues :=
  match cat with
  | .coil => .bits [Config.initBit]
  | .discreteInput => .bits [Config.initBit]
  | .inputRegister => .words [Config.initReg]
  | .holdingRegister => .words [Config.initReg]

/-- A value of `set_values` as a cell of the category holds it: nothing where it is outside the category's
domain (R233). -/
def cellOf (cat : Category) (v : Int) : Option CellValues :=
  match cat with
  | .coil => if v = 0 ∨ v = 1 then some (.bits [decide (v = 1)]) else none
  | .discreteInput => if v = 0 ∨ v = 1 then some (.bits [decide (v = 1)]) else none
  | .inputRegister => if 0 ≤ v ∧ v ≤ 65535 then some (.words [BitVec.ofInt 16 v]) else none
  | .holdingRegister => if 0 ≤ v ∧ v ≤ 65535 then some (.words [BitVec.ofInt 16 v]) else none

/-- The events by which a client that keeps the bus discipline sends a frame and takes the response: the frame's
bytes, a silence, the Process step, one `TxReady` per byte of the response, `TxDrained` (R211). -/
def serveEvents (f : List Byte) (responseLength : Nat) : List Event :=
  f.map Event.rxByte ++ [Event.silence, Event.process] ++ List.replicate responseLength Event.txReady
    ++ [Event.txDrained]

/-- `k` steps, one after the other; a fault or a refusal ends them. -/
def runSteps : Nat → State → Host.Outcome State Fault Refusal
  | 0, s => .next s
  | k + 1, s =>
    match step s with
    | .next t => runSteps k t
    | .fault f => .fault f
    | .refused r => .refused r

end Sys2Proof.Machine
end

