-- ==== Sys2Proof/Certificates/Slice0/Obligations.lean ====
section
/-! DEFINITION. The statements for the provers, each with the rules of the spec it comes from. -/

open Sys2Proof Sys2Proof.Machine

/-! ## Reset, the invariant, whole-machine rules -/

/-- R291: after creation the Server is `Idle`, does not own the channel, has no Slaves and all framer and transmit
state 0; no event of the bus has an effect, and `start()` is the way into service. -/
def Obligations.ResetIsCreatedIdle : Prop :=
  State.reset.server.dispState = .idle ∧ State.reset.server.ownsChannel = false ∧
  State.reset.server.slaves = [] ∧ State.reset.server.rxLen = 0 ∧ State.reset.server.resync = false ∧
  State.reset.server.gapTimer = 0 ∧ State.reset.server.txLen = 0 ∧ State.reset.server.txPos = 0 ∧
  (∀ e : Event, e.isHost = false → handleEvent e State.reset = .next State.reset) ∧
  ∃ t, handleEvent (.host (.start true)) State.reset = .next t ∧ t.server.dispState = .awaitingRequest

/-- R39, R40: the machine's invariant holds right after reset. -/
def Obligations.ResetMeetsInvariant : Prop := State.reset.Inv

/-- R39: every step, of the bus, of the timer, of the host or of the worker, keeps the invariant. -/
def Obligations.StepKeepsInvariant : Prop :=
  ∀ s t : State, s.Inv → step s = .next t → t.Inv

/-- R271: whatever event comes, a machine that meets the invariant has a next state. -/
def Obligations.MachineNeverStopsUnderInvariant : Prop :=
  ∀ s : State, s.Inv → ∃ t, step s = .next t

/-- R34, R83, R271, R276: no event but the host's changes a slave address, a block table, a Coil, a DiscreteInput or
an InputRegister, and none takes the Server out of `Idle` or into or out of `Stopped`. -/
def Obligations.OnlyHostConfiguresAndStops : Prop :=
  ∀ (e : Event) (s t : State), e.isHost = false → handleEvent e s = .next t →
    t.server.hostOnly = s.server.hostOnly ∧
    (t.server.dispState = .stopped ↔ s.server.dispState = .stopped) ∧
    (t.server.dispState = .idle ↔ s.server.dispState = .idle)

/-- R38, R81, R139: of the events that are not the host's only `Process`, in `Processing`, changes the Store. -/
def Obligations.StoreChangesOnlyInProcess : Prop :=
  ∀ (e : Event) (s t : State), e.isHost = false → handleEvent e s = .next t →
    t.server.slaves ≠ s.server.slaves → e = .process ∧ s.server.dispState = .processing

/-- R204, R205: in `Processing`, when the `Process` event's turn comes or no event waits, the step is `exec` of the
decoded request; any other event is handled in its turn; and without an event, outside `Processing`, the machine
waits as it is. -/
def Obligations.StepRunsDecodedRequest : Prop :=
  (∀ (s : State) (i : Instr), s.server.dispState = .processing →
    decode (pduOf s.server.frame) = .ok i → s.inbox = [] → step s = exec i s) ∧
  (∀ (s : State) (i : Instr) (rest : List Event), s.server.dispState = .processing →
    decode (pduOf s.server.frame) = .ok i → s.inbox = .process :: rest →
    step s = exec i { s with inbox := rest }) ∧
  (∀ (s : State) (e : Event) (rest : List Event), s.inbox = e :: rest →
    step s = handleEvent e { s with inbox := rest }) ∧
  (∀ s : State, s.inbox = [] → s.server.dispState ≠ .processing → step s = .next s)

/-! ## The Codec -/

/-- R110, R111: the decoder gives a well-formed request exactly for the PDUs whose length, count and byte count
pass the checks of R110. -/
def Obligations.DecoderAcceptsExactlyLegalPdus : Prop :=
  ∀ p : List Byte, supportedFc (p.getD 0 0) = true → p ≠ [] →
    ((∃ i, decode p = .ok i ∧ i.wellFormed = true) ↔ pduLegal p = true)

/-- R94 to R96, R110: a well-formed request is read back from its encoding, every field whole. -/
def Obligations.RequestsDecodeFromTheirEncoding : Prop :=
  ∀ i : Instr, i.isRequest = true → i.wellFormed = true → decode (encode i) = .ok i

/-- R97 to R101: a well-formed response is read back from its encoding, every field whole. -/
def Obligations.ResponsesDecodeFromTheirEncoding : Prop :=
  ∀ i : Instr, i.isRequest = false → i.wellFormed = true → decodeResponse (encode i) = .ok i

/-- R110: the decoder drops nothing: what it reads encodes to the bytes it read. -/
def Obligations.DecodedRequestsEncodeBack : Prop :=
  ∀ (p : List Byte) (i : Instr), decode p = .ok i → encode i = p

/-- Words written out from R94 to R96, R101 and the examples of the spec decode to the instructions they stand
for. -/
def Obligations.WrittenOutWordsDecode : Prop :=
  decode [0x01, 0x00, 0x00, 0x00, 0x0A] = .ok (.rdCoils 0x0000 10) ∧
  decode [0x02, 0x20, 0x00, 0x00, 0x0A] = .ok (.rdDiscrete 0x2000 10) ∧
  decode [0x03, 0x90, 0x00, 0x00, 0x02] = .ok (.rdHolding 0x9000 2) ∧
  decode [0x04, 0x31, 0x00, 0x00, 0x02] = .ok (.rdInput 0x3100 2) ∧
  decode [0x06, 0x90, 0x01, 0x01, 0xF4] = .ok (.wrSingle 0x9001 500) ∧
  decode [0x10, 0x90, 0x02, 0x00, 0x02, 0x04, 0x00, 0x0A, 0x01, 0x02] = .ok (.wrMulti 0x9002 [10, 258]) ∧
  decode [0x05, 0x00, 0x00, 0xFF, 0x00] = .ok (.unsupported 0x05 [0x00, 0x00, 0xFF, 0x00]) ∧
  decodeResponse [0x03, 0x04, 0x00, 0x03, 0x01, 0xBD] = .ok (.rspRdHolding [3, 445]) ∧
  decodeResponse [0x85, 0x01] = .ok (.rspException 0x05 0x01)

/-- R165: bit `k` of data byte `j` is the value at index `8j + k`, and 0 past the last one. -/
def Obligations.PackedBitsStandLowestFirst : Prop :=
  ∀ v : List Bool, (packBits v).length = (v.length + 7) / 8 ∧
    ∀ j k, j < (v.length + 7) / 8 → k < 8 →
      ((packBits v).getD j 0).getLsbD k = v.getD (8 * j + k) false

/-- R166: each value's high byte, then its low byte, in the order of the values. -/
def Obligations.RegisterBytesStandHighFirst : Prop :=
  ∀ v : List Word, (regsBytes v).length = 2 * v.length ∧
    ∀ i, i < v.length →
      (regsBytes v).getD (2 * i) 0 = hi8 (v.getD i 0) ∧ (regsBytes v).getD (2 * i + 1) 0 = lo8 (v.getD i 0)

/-- R101: an exception response is the function code with bit 7 set and the code; a function code that has bit 7
set already stands there unchanged. -/
def Obligations.ExceptionPduSetsTheHighBit : Prop :=
  ∀ (fc : Byte) (code : ExceptionCode),
    exceptionPdu fc code = [fc ||| 0x80, code.number] ∧
    (∀ k, k < 7 → (fc ||| 0x80).getLsbD k = fc.getLsbD k) ∧ (fc ||| 0x80).getLsbD 7 = true ∧
    (fc.getLsbD 7 = true → fc ||| 0x80 = fc)

/-! ## The CRC -/

/-- R140: from 0xFFFF, each byte enters the low 8 bits and eight right shifts follow; the CRC bytes are sent low
byte first; and the rule's own values. -/
def Obligations.CrcTakesBytesLowBitFirst : Prop :=
  crc16 [] = 0xFFFF ∧
  (∀ (q : List Byte) (b : Byte), crc16 (q ++ [b]) =
    (fun c : Word => if c.getLsbD 0 then (c >>> 1) ^^^ 0xA001#16 else c >>> 1)^[8] (crc16 q ^^^ b.setWidth 16)) ∧
  (∀ q : List Byte, crcBytes q = [lo8 (crc16 q), hi8 (crc16 q)]) ∧
  crc16 [0x00] = 0x40BF ∧ crc16 [0x01] = 0x807E ∧ crc16 [0xFF] = 0x00FF ∧
  crc16 [0x31, 0x32, 0x33, 0x34, 0x35, 0x36, 0x37, 0x38, 0x39] = 0x4B37 ∧
  crc16 [0x01, 0x03, 0x90, 0x00, 0x00, 0x02] = 0x0BE9

/-- R143: a sequence with its CRC appended has CRC 0, and the check of a frame is the same as CRC 0 over all of
it. -/
def Obligations.CrcResidueIsZero : Prop :=
  (∀ q : List Byte, crc16 (q ++ [lo8 (crc16 q), hi8 (crc16 q)]) = 0) ∧
  ∀ f : List Byte, 4 ≤ f.length → (crcOk f = true ↔ crc16 f = 0)

/-- R102, R144: every frame an instruction hands to the transmitter begins with the current Slave's address and
passes the check of R141. -/
def Obligations.TransmittedFramesPassTheCheck : Prop :=
  ∀ (i : Instr) (s t : State) (sl : Slave), s.server.currentSlave = some sl → exec i s = .next t →
    (t.server.txBuf.take t.server.txLen)[0]? = some sl.addr ∧
    crcOk (t.server.txBuf.take t.server.txLen) = true

/-! ## The Register Store -/

/-- R24: an address is covered when exactly one block of the category covers it; with disjoint blocks, when at
least one does. -/
def Obligations.CoverageIsExactlyOneBlock : Prop :=
  (∀ (sl : Slave) (cat : Category) (a : Nat), sl.covered cat a = true ↔
    a ≤ 0xFFFF ∧ ∃! k : Nat, ∃ b : Block, sl.blocks[k]? = some b ∧ b.cat = cat ∧ b.start ≤ a ∧ a < b.start + b.length) ∧
  (∀ (sl : Slave) (cat : Category) (a : Nat), sl.Inv → (sl.covered cat a = true ↔
    ∃ b ∈ sl.blocks, b.cat = cat ∧ b.start ≤ a ∧ a < b.start + b.length))

/-- R69: a range that runs past 0xFFFF is not covered, whatever the blocks: every request of a legal count for it is
answered with IllegalDataAddress, and nothing is stored. -/
def Obligations.RangePastTheTopIsRejected : Prop :=
  ∀ (s : State) (sl : Slave) (addr count : Word) (vals : List Word), s.server.currentSlave = some sl →
    1 ≤ count.toNat → 0x10000 < addr.toNat + count.toNat → vals.length = count.toNat →
    (count.toNat ≤ 2000 → AnswersException (.rdCoils addr count) s sl 0x81 0x02 ∧
      AnswersException (.rdDiscrete addr count) s sl 0x82 0x02) ∧
    (count.toNat ≤ 125 → AnswersException (.rdHolding addr count) s sl 0x83 0x02 ∧
      AnswersException (.rdInput addr count) s sl 0x84 0x02) ∧
    (count.toNat ≤ 123 → AnswersException (.wrMulti addr vals) s sl 0x90 0x02)

/-! ## The requests -/

/-- R161: Read Coils answers with the packed bits of the range and changes nothing in the Store. -/
def Obligations.ReadCoilsAnswersTheBits : Prop :=
  ∀ (addr count : Word) (s : State) (sl : Slave), s.server.currentSlave = some sl →
    1 ≤ count.toNat → count.toNat ≤ 2000 → sl.CoversAll .coil addr.toNat count.toNat →
    ∃ t, exec (.rdCoils addr count) s = .next t ∧
      Answers s t sl.addr (0x01 :: BitVec.ofNat 8 ((count.toNat + 7) / 8) ::
        packBits ((List.range count.toNat).map fun i => Memory.read Config.initBit sl.coils (addr.toNat + i))) ∧
      t.server.slaves = s.server.slaves

/-- R162: Read Discrete Inputs answers with the packed bits of the range and changes nothing in the Store. -/
def Obligations.ReadDiscreteInputsAnswersTheBits : Prop :=
  ∀ (addr count : Word) (s : State) (sl : Slave), s.server.currentSlave = some sl →
    1 ≤ count.toNat → count.toNat ≤ 2000 → sl.CoversAll .discreteInput addr.toNat count.toNat →
    ∃ t, exec (.rdDiscrete addr count) s = .next t ∧
      Answers s t sl.addr (0x02 :: BitVec.ofNat 8 ((count.toNat + 7) / 8) ::
        packBits ((List.range count.toNat).map fun i =>
          Memory.read Config.initBit sl.discretes (addr.toNat + i))) ∧
      t.server.slaves = s.server.slaves

/-- R163: Read Holding Registers answers with the values of the range and changes nothing in the Store. -/
def Obligations.ReadHoldingRegistersAnswersTheValues : Prop :=
  ∀ (addr count : Word) (s : State) (sl : Slave), s.server.currentSlave = some sl →
    1 ≤ count.toNat → count.toNat ≤ 125 → sl.CoversAll .holdingRegister addr.toNat count.toNat →
    ∃ t, exec (.rdHolding addr count) s = .next t ∧
      Answers s t sl.addr (0x03 :: BitVec.ofNat 8 (2 * count.toNat) ::
        regsBytes ((List.range count.toNat).map fun i => sl.holding (addr.toNat + i))) ∧
      t.server.slaves = s.server.slaves

/-- R164: Read Input Registers answers with the values of the range and changes nothing in the Store. -/
def Obligations.ReadInputRegistersAnswersTheValues : Prop :=
  ∀ (addr count : Word) (s : State) (sl : Slave), s.server.currentSlave = some sl →
    1 ≤ count.toNat → count.toNat ≤ 125 → sl.CoversAll .inputRegister addr.toNat count.toNat →
    ∃ t, exec (.rdInput addr count) s = .next t ∧
      Answers s t sl.addr (0x04 :: BitVec.ofNat 8 (2 * count.toNat) ::
        regsBytes ((List.range count.toNat).map fun i => Memory.read Config.initReg sl.inputs (addr.toNat + i))) ∧
      t.server.slaves = s.server.slaves

/-- R161 to R164, R263, R264: a read whose count is out of its limits is answered with IllegalDataValue, whatever
its address, and one with a legal count and an uncovered address with IllegalDataAddress. -/
def Obligations.BadReadsAnswerTheirException : Prop :=
  ∀ (addr count : Word) (s : State) (sl : Slave), s.server.currentSlave = some sl →
    (¬ (1 ≤ count.toNat ∧ count.toNat ≤ 2000) →
      AnswersException (.rdCoils addr count) s sl 0x81 0x03 ∧
      AnswersException (.rdDiscrete addr count) s sl 0x82 0x03) ∧
    (¬ (1 ≤ count.toNat ∧ count.toNat ≤ 125) →
      AnswersException (.rdHolding addr count) s sl 0x83 0x03 ∧
      AnswersException (.rdInput addr count) s sl 0x84 0x03) ∧
    (1 ≤ count.toNat ∧ count.toNat ≤ 2000 →
      (¬ sl.CoversAll .coil addr.toNat count.toNat → AnswersException (.rdCoils addr count) s sl 0x81 0x02) ∧
      (¬ sl.CoversAll .discreteInput addr.toNat count.toNat →
        AnswersException (.rdDiscrete addr count) s sl 0x82 0x02)) ∧
    (1 ≤ count.toNat ∧ count.toNat ≤ 125 →
      (¬ sl.CoversAll .holdingRegister addr.toNat count.toNat →
        AnswersException (.rdHolding addr count) s sl 0x83 0x02) ∧
      (¬ sl.CoversAll .inputRegister addr.toNat count.toNat →
        AnswersException (.rdInput addr count) s sl 0x84 0x02))

/-- R181: Write Single Register stores its value, nothing else, and echoes the request. -/
def Obligations.WriteSingleStoresAndEchoes : Prop :=
  ∀ (addr value : Word) (s : State) (sl : Slave), s.server.currentSlave = some sl →
    Memory.wf Config.initReg sl.holdings → sl.covered .holdingRegister addr.toNat = true →
    ∃ t sl', exec (.wrSingle addr value) s = .next t ∧
      Answers s t sl.addr [0x06, hi8 addr, lo8 addr, hi8 value, lo8 value] ∧
      StoredHoldings sl sl' addr.toNat [value] ∧
      t.server.slaves = s.server.slaves.set s.server.curSlave sl'

/-- R182: Write Multiple Registers stores all its values, nothing else, and answers address and count. -/
def Obligations.WriteMultipleStoresAll : Prop :=
  ∀ (addr : Word) (vals : List Word) (s : State) (sl : Slave), s.server.currentSlave = some sl →
    Memory.wf Config.initReg sl.holdings → 1 ≤ vals.length → vals.length ≤ 123 →
    sl.CoversAll .holdingRegister addr.toNat vals.length →
    ∃ t sl', exec (.wrMulti addr vals) s = .next t ∧
      Answers s t sl.addr [0x10, hi8 addr, lo8 addr, hi8 (BitVec.ofNat 16 vals.length),
        lo8 (BitVec.ofNat 16 vals.length)] ∧
      StoredHoldings sl sl' addr.toNat vals ∧
      t.server.slaves = s.server.slaves.set s.server.curSlave sl'

/-- R184, R71, R83: a write that addresses any register no HoldingRegister block covers, or has an illegal number of
values, answers its exception and stores nothing, not even where the range is covered. -/
def Obligations.FailedWritesStoreNothing : Prop :=
  ∀ (addr value : Word) (vals : List Word) (s : State) (sl : Slave), s.server.currentSlave = some sl →
    (sl.covered .holdingRegister addr.toNat = false →
      AnswersException (.wrSingle addr value) s sl 0x86 0x02) ∧
    (¬ (1 ≤ vals.length ∧ vals.length ≤ 123) → AnswersException (.wrMulti addr vals) s sl 0x90 0x03) ∧
    (1 ≤ vals.length ∧ vals.length ≤ 123 → ¬ sl.CoversAll .holdingRegister addr.toNat vals.length →
      AnswersException (.wrMulti addr vals) s sl 0x90 0x02)

/-- R183, R75: a read of the range just written returns exactly the values written. -/
def Obligations.WriteThenReadReturnsTheValues : Prop :=
  ∀ (addr : Word) (vals : List Word) (s : State) (sl : Slave), s.server.currentSlave = some sl →
    Memory.wf Config.initReg sl.holdings → 1 ≤ vals.length → vals.length ≤ 123 →
    sl.CoversAll .holdingRegister addr.toNat vals.length →
    ∃ t u, exec (.wrMulti addr vals) s = .next t ∧
      exec (.rdHolding addr (BitVec.ofNat 16 vals.length)) t = .next u ∧
      Answers t u sl.addr (0x03 :: BitVec.ofNat 8 (2 * vals.length) :: regsBytes vals)

/-- R112: every function code outside the six is decoded as unsupported, whatever follows it, and answered with
IllegalFunction. -/
def Obligations.UnsupportedAnswersIllegalFunction : Prop :=
  ∀ (fc : Byte) (payload : List Byte) (s : State) (sl : Slave),
    fc ∉ [0x01#8, 0x02#8, 0x03#8, 0x04#8, 0x06#8, 0x10#8] → s.server.currentSlave = some sl →
    decode (fc :: payload) = .ok (.unsupported fc payload) ∧
    AnswersException (.unsupported fc payload) s sl (fc ||| 0x80) 0x01

/-- R262: raising an exception answers with a frame of 5 bytes, the Slave's address, the function code with bit 7
set, the code and the CRC, and leaves the Store exactly as it was. -/
def Obligations.ExceptionAnswersFiveBytes : Prop :=
  ∀ (fc : Byte) (code : ExceptionCode) (s : State) (sl : Slave), s.server.currentSlave = some sl →
    ∃ t, raiseException fc code s = .next t ∧ Answers s t sl.addr [fc ||| 0x80, code.number] ∧
      t.server.txLen = 5 ∧ t.server.slaves = s.server.slaves

/-- R288: a request that meets an internal error is answered with SlaveDeviceFailure, and the Store is as before,
whatever the request's work would have stored. -/
def Obligations.InternalErrorStoresNothing : Prop :=
  ∀ (fc : Byte) (work : Slave → Option (List Byte × Slave)) (s : State) (sl : Slave) (r : List Byte × Slave),
    s.server.currentSlave = some sl → work sl = some r →
    ∃ t, serveRequest fc true true work s = .next t ∧ Answers s t sl.addr [fc ||| 0x80, 0x04] ∧
      t.server.slaves = s.server.slaves

/-! ## The responses -/

/-- R97 to R102: a well-formed response is framed with the current Slave's address and handed to the transmitter,
and the Store is as before. -/
def Obligations.ResponsesAreSent : Prop :=
  ∀ (i : Instr) (s : State) (sl : Slave), i.isRequest = false → i.wellFormed = true →
    s.server.currentSlave = some sl →
    ∃ t, exec i s = .next t ∧ Answers s t sl.addr (encode i) ∧ t.server.slaves = s.server.slaves

/-- R97 to R101: the bytes of the response PDUs. -/
def Obligations.ResponseLayouts : Prop :=
  (∀ data, encode (.rspRdCoils data) = 0x01 :: BitVec.ofNat 8 data.length :: data) ∧
  (∀ data, encode (.rspRdDiscrete data) = 0x02 :: BitVec.ofNat 8 data.length :: data) ∧
  (∀ vals, encode (.rspRdHolding vals) = 0x03 :: BitVec.ofNat 8 (2 * vals.length) :: regsBytes vals) ∧
  (∀ vals, encode (.rspRdInput vals) = 0x04 :: BitVec.ofNat 8 (2 * vals.length) :: regsBytes vals) ∧
  (∀ addr value, encode (.rspWrSingle addr value) = [0x06, hi8 addr, lo8 addr, hi8 value, lo8 value]) ∧
  (∀ addr count, encode (.rspWrMulti addr count) = [0x10, hi8 addr, lo8 addr, hi8 count, lo8 count]) ∧
  (∀ (fc : Byte) (code : Byte), encode (.rspException (fc.setWidth 7) code) = [fc ||| 0x80, code])

/-- The model's choice (log entry 11): a term that is no response of R97 to R101 is refused by name. -/
def Obligations.IllFormedResponsesAreRefused : Prop :=
  ∀ (i : Instr) (s : State), i.isRequest = false → i.wellFormed = false →
    exec i s = .refused .illFormedResponse

/-! ## Frames of the instructions -/

/-- R75, R160: whatever a read, an unsupported request or a response does, when it has a next state the whole Store
and block table, the receive buffer, the transmit buffer beyond the response, `resync`, the gap timer, `cur_slave`
and everything outside the Server are unchanged; it writes only the response, `tx_len`, `tx_pos`, `rx_len` and
`disp_state`. -/
def Obligations.NonWritesChangeNoStore : Prop :=
  ∀ (i : Instr) (s t : State), (∀ a v, i ≠ .wrSingle a v) → (∀ a vs, i ≠ .wrMulti a vs) → exec i s = .next t →
    t.server.slaves = s.server.slaves ∧ t.server.rxBuf = s.server.rxBuf ∧
    t.server.txBuf.drop t.server.txLen = s.server.txBuf.drop t.server.txLen ∧ t.server.resync = s.server.resync ∧
    t.server.gapTimer = s.server.gapTimer ∧ t.server.curSlave = s.server.curSlave ∧ t.inbox = s.inbox ∧
    t.wire = s.wire ∧ t.replies = s.replies

/-- R71, R180, R202: whatever a write does, when it has a next state every HoldingRegister address outside
`[addr, addr + n)` of the current Slave reads as before, its other spaces, its address and its block table are
unchanged, and so are all other Slaves, the receive buffer, the transmit buffer beyond the response, `resync`, the
gap timer, `cur_slave` and everything outside the Server. -/
def Obligations.WritesChangeOnlyTheirRange : Prop :=
  ∀ (i : Instr) (addr : Word) (n : Nat) (s t : State) (sl : Slave),
    ((∃ value, i = .wrSingle addr value ∧ n = 1) ∨ (∃ vals, i = .wrMulti addr vals ∧ n = vals.length)) →
    s.server.currentSlave = some sl → Memory.wf Config.initReg sl.holdings → exec i s = .next t →
    (∃ sl', t.server.currentSlave = some sl' ∧ sl'.addr = sl.addr ∧ sl'.blocks = sl.blocks ∧
      sl'.coils = sl.coils ∧ sl'.discretes = sl.discretes ∧ sl'.inputs = sl.inputs ∧
      ∀ x, x < addr.toNat ∨ addr.toNat + n ≤ x → sl'.holding x = sl.holding x) ∧
    (∀ k, k ≠ s.server.curSlave → t.server.slaves[k]? = s.server.slaves[k]?) ∧
    t.server.rxBuf = s.server.rxBuf ∧
    t.server.txBuf.drop t.server.txLen = s.server.txBuf.drop t.server.txLen ∧ t.server.resync = s.server.resync ∧
    t.server.gapTimer = s.server.gapTimer ∧ t.server.curSlave = s.server.curSlave ∧ t.inbox = s.inbox ∧
    t.wire = s.wire ∧ t.replies = s.replies

/-- R202, R285: two machines that differ only in the Slaves other than the current one answer alike and stay so,
and the other Slaves are untouched. -/
def Obligations.OtherSlavesAreIsolated : Prop :=
  ∀ (i : Instr) (s t s' : State), SameForCurrent s t → exec i s = .next s' →
    ∃ t', exec i t = .next t' ∧ SameForCurrent s' t' ∧
      ∀ k, k ≠ t.server.curSlave → t'.server.slaves[k]? = t.server.slaves[k]?

/-! ## The Process step and the request cycle -/

/-- R204, R205, R110: the Process step of any PDU of at least one byte gives the response and the Store that
`execute` gives. -/
def Obligations.ProcessComputesExecute : Prop :=
  ∀ (s : State) (sl : Slave), s.server.dispState = .processing → s.server.currentSlave = some sl →
    pduOf s.server.frame ≠ [] →
    ∃ t, process s = .next t ∧ Answers s t sl.addr (execute sl (pduOf s.server.frame)).1 ∧
      t.server.slaves = s.server.slaves.set s.server.curSlave (execute sl (pduOf s.server.frame)).2

/-- R211: a frame that passes the check and is addressed to an owned Slave, sent in keeping with the bus discipline,
puts the response frame of `execute` on the wire, its writes in the Store, and the machine back where it was. -/
def Obligations.ServeAnswersValidFrames : Prop :=
  ∀ (s : State) (f : List Byte) (k : Nat) (sl : Slave) (rest : List Event),
    s.Inv → s.server.dispState = .awaitingRequest → s.server.rxLen = 0 → s.server.resync = false →
    4 ≤ f.length → f.length < Config.maxFrame → crcOk f = true →
    s.server.slaves[k]? = some sl → f[0]? = some sl.addr →
    s.inbox = serveEvents f ((execute sl (pduOf f)).1.length + 3) ++ rest →
    ∃ t, runSteps (serveEvents f ((execute sl (pduOf f)).1.length + 3)).length s = .next t ∧
      t.wire = s.wire ++ (sl.addr :: (execute sl (pduOf f)).1 ++ crcBytes (sl.addr :: (execute sl (pduOf f)).1)) ∧
      t.server.slaves = s.server.slaves.set k (execute sl (pduOf f)).2 ∧
      t.server.dispState = .awaitingRequest ∧ t.server.rxLen = 0 ∧ t.server.resync = false ∧
      t.server.txLen = 0 ∧ t.server.txPos = 0 ∧ t.inbox = rest ∧ t.replies = s.replies

/-- R211, R139, R146: a frame that is too short, fails the check or is addressed to no owned Slave puts nothing on
the wire and leaves the Store as it is, and the machine is ready for the next frame. -/
def Obligations.ServeDropsInvalidFrames : Prop :=
  ∀ (s : State) (f : List Byte) (rest : List Event),
    s.Inv → s.server.dispState = .awaitingRequest → s.server.rxLen = 0 → s.server.resync = false →
    1 ≤ f.length → f.length < Config.maxFrame →
    (f.length < 4 ∨ crcOk f = false ∨ ∀ sl ∈ s.server.slaves, f[0]? ≠ some sl.addr) →
    s.inbox = f.map Event.rxByte ++ Event.silence :: rest →
    ∃ t, runSteps (f.length + 1) s = .next t ∧ t.wire = s.wire ∧ t.server.slaves = s.server.slaves ∧
      t.server.dispState = .awaitingRequest ∧ t.server.rxLen = 0 ∧ t.server.resync = false ∧
      t.inbox = rest ∧ t.replies = s.replies

/-! ## The Framer and the Validator -/

/-- R131: in `AwaitingRequest` with `resync` 0 a byte is appended and clears the gap timer; the byte that fills the
buffer sets `resync` and completes the frame in the same step. -/
def Obligations.AcceptedByteIsAppended : Prop :=
  ∀ (b : Byte) (s : State), s.server.dispState = .awaitingRequest → s.server.resync = false →
    (s.server.rxLen + 1 < 256 → handleEvent (.rxByte b) s = .next { s with
      server := { s.server with
        rxBuf := s.server.rxBuf.set s.server.rxLen b, rxLen := s.server.rxLen + 1, gapTimer := 0 } }) ∧
    (s.server.rxLen + 1 = 256 → handleEvent (.rxByte b) s = .next { s with
      server := Server.completeFrame { s.server with
        rxBuf := s.server.rxBuf.set s.server.rxLen b, rxLen := s.server.rxLen + 1, gapTimer := 0,
        resync := true } })

/-- R132: in `AwaitingRequest` with `resync` 1 a byte is discarded and only the gap timer is cleared. -/
def Obligations.ByteIsDiscardedUntilSilence : Prop :=
  ∀ (b : Byte) (s : State), s.server.dispState = .awaitingRequest → s.server.resync = true →
    handleEvent (.rxByte b) s = .next { s with server := { s.server with gapTimer := 0 } }

/-- R133: while a request is in flight a byte is discarded, sets `resync` and clears the gap timer. -/
def Obligations.ByteIsLostWhileBusy : Prop :=
  ∀ (b : Byte) (s : State), s.server.dispState = .processing ∨ s.server.dispState = .responding →
    handleEvent (.rxByte b) s = .next { s with server := { s.server with resync := true, gapTimer := 0 } }

/-- R135, R137: `Silence` clears `resync` while the Server owns the channel; in `AwaitingRequest` it completes a
frame that has begun. -/
def Obligations.SilenceCompletesTheFrame : Prop :=
  ∀ s : State,
    (s.server.dispState = .awaitingRequest → s.server.rxLen = 0 →
      handleEvent .silence s = .next { s with server := { s.server with resync := false } }) ∧
    (s.server.dispState = .awaitingRequest → 0 < s.server.rxLen →
      handleEvent .silence s =
        .next { s with server := Server.completeFrame { s.server with resync := false } }) ∧
    (s.server.dispState = .processing ∨ s.server.dispState = .responding →
      handleEvent .silence s = .next { s with server := { s.server with resync := false } })

/-- R142, R202, R264, R266: the Validator tests length, CRC and address in this order, and its verdict names the first
test that fails; a dropped frame only empties the receive buffer, and a frame that passes all three is accepted for
the one Slave of its address. -/
def Obligations.FrameCompletionChecksInOrder : Prop :=
  ∀ v : Server,
    (v.frame.length < 4 →
      validate (v.slaves.map Slave.addr) v.frame = .drop .short ∧ v.completeFrame = { v with rxLen := 0 }) ∧
    (4 ≤ v.frame.length → crcOk v.frame = false →
      validate (v.slaves.map Slave.addr) v.frame = .drop .crc ∧ v.completeFrame = { v with rxLen := 0 }) ∧
    (4 ≤ v.frame.length → crcOk v.frame = true → (∀ sl ∈ v.slaves, v.frame[0]? ≠ some sl.addr) →
      validate (v.slaves.map Slave.addr) v.frame = .drop .address ∧ v.completeFrame = { v with rxLen := 0 }) ∧
    (∀ k sl, 4 ≤ v.frame.length → crcOk v.frame = true → v.slaves.Pairwise (fun a b => a.addr ≠ b.addr) →
      v.slaves[k]? = some sl → v.frame[0]? = some sl.addr →
      validate (v.slaves.map Slave.addr) v.frame = .accept k ∧
        v.completeFrame = { v with curSlave := k, dispState := .processing })

/-- R113: with legal slave addresses, a frame addressed to 0 or to 248..255 is dropped. -/
def Obligations.ReservedAddressesAreDropped : Prop :=
  ∀ (v : Server) (a : Byte), (∀ sl ∈ v.slaves, sl.Inv) → v.frame[0]? = some a → a = 0 ∨ 248 ≤ a.toNat →
    v.completeFrame = { v with rxLen := 0 }

/-- R201, R134, R137: the pairs of state and event outside the transition table leave every piece of state
unchanged. -/
def Obligations.OtherEventsHaveNoEffect : Prop :=
  ∀ s : State,
    (s.server.dispState = .idle ∨ s.server.dispState = .stopped →
      ∀ e : Event, e.isHost = false → handleEvent e s = .next s) ∧
    (s.server.dispState = .awaitingRequest →
      ∀ e ∈ [Event.process, Event.txReady, Event.txDrained], handleEvent e s = .next s) ∧
    (s.server.dispState = .processing →
      ∀ e ∈ [Event.txReady, Event.txDrained], handleEvent e s = .next s) ∧
    (s.server.dispState = .responding → handleEvent .process s = .next s ∧
      (s.server.txPos = s.server.txLen → handleEvent .txReady s = .next s) ∧
      (s.server.txPos < s.server.txLen → handleEvent .txDrained s = .next s))

/-! ## Transmission and the gap timer -/

/-- R207: in `Responding`, while bytes are left, `TxReady` emits the byte at `tx_pos` and advances `tx_pos`; with
none left, or in any other state, it has no effect. -/
def Obligations.TxReadyEmitsTheNextByte : Prop :=
  ∀ s : State,
    (∀ b : Byte, s.server.dispState = .responding → s.server.txPos < s.server.txLen →
      s.server.txBuf[s.server.txPos]? = some b →
      handleEvent .txReady s =
        .next { s with server := { s.server with txPos := s.server.txPos + 1 }, wire := s.wire ++ [b] }) ∧
    (s.server.dispState ≠ .responding ∨ s.server.txPos = s.server.txLen → handleEvent .txReady s = .next s)

/-- R208: in `Responding`, with the whole response emitted, `TxDrained` clears the transmit state and returns to
`AwaitingRequest`, `resync` as it was left; with bytes left, or in another state, it has no effect. -/
def Obligations.TxDrainedReturnsToAwaiting : Prop :=
  ∀ s : State,
    (s.server.dispState = .responding → s.server.txPos = s.server.txLen →
      handleEvent .txDrained s =
        .next { s with server := { s.server with txLen := 0, txPos := 0, dispState := .awaitingRequest } }) ∧
    (s.server.dispState ≠ .responding ∨ s.server.txPos < s.server.txLen → handleEvent .txDrained s = .next s)

/-- R281, R282: while the Server owns the channel, the first `T_SILENT_TICKS` ticks after a byte only count; the next
one raises `Silence`; from then on a tick changes nothing. -/
def Obligations.SilenceIsRaisedOncePerGap : Prop :=
  (∀ v : Server, v.ownsChannel = true → v.gapTimer = 0 →
    (∀ k ≤ Config.tSilentTicks, Server.tick^[k] v = { v with gapTimer := k }) ∧
    Server.tick^[Config.tSilentTicks + 1] v =
      Server.silence { v with gapTimer := Config.tSilentTicks + 1 } ∧
    (Server.tick^[Config.tSilentTicks + 1] v).gapTimer = Config.tSilentTicks + 1) ∧
  (∀ v : Server, Config.tSilentTicks < v.gapTimer → v.tick = v)

/-! ## The host's operations -/

/-- R234: `start()` clears the framer and transmit state and enters `AwaitingRequest` from `Idle` when the channel is
available; otherwise it fails, by ResourceError in `Idle` and by PreconditionViolation elsewhere, and changes
nothing. -/
def Obligations.StartEntersService : Prop :=
  ∀ v : Server,
    (v.dispState = .idle → v.hostOp (.start true) = ({ v with
      rxLen := 0, resync := false, gapTimer := 0, txLen := 0, txPos := 0, dispState := .awaitingRequest }, .ok)) ∧
    (v.dispState = .idle → v.hostOp (.start false) = (v, .failed .resourceError)) ∧
    (v.dispState ≠ .idle → ∀ c, v.hostOp (.start c) = (v, .failed .preconditionViolation))

/-- R235: `stop()` while the channel is owned clears the buffers and `resync`, leaves every register as it is, and
enters `Stopped`; in `Idle` and `Stopped` it fails and changes nothing. -/
def Obligations.StopAbandonsTheRequest : Prop :=
  ∀ v : Server,
    (v.dispState = .awaitingRequest ∨ v.dispState = .processing ∨ v.dispState = .responding →
      v.hostOp .stop =
        ({ v with rxLen := 0, txLen := 0, txPos := 0, resync := false, dispState := .stopped }, .ok)) ∧
    (v.dispState = .idle ∨ v.dispState = .stopped → v.hostOp .stop = (v, .failed .preconditionViolation))

/-- R231: `add_slave` in `Idle` appends a Slave without blocks for an unused address in 1..247, and is a ConfigError
for any other. -/
def Obligations.AddSlaveAppends : Prop :=
  ∀ (v : Server) (address : Int), v.dispState = .idle →
    (1 ≤ address → address ≤ 247 → (∀ sl ∈ v.slaves, (sl.addr.toNat : Int) ≠ address) →
      ∃ sl : Slave, v.hostOp (.addSlave address) = ({ v with slaves := v.slaves ++ [sl] }, .ok) ∧
        (sl.addr.toNat : Int) = address ∧ sl.blocks = []) ∧
    (address < 1 ∨ 247 < address ∨ (∃ sl ∈ v.slaves, (sl.addr.toNat : Int) = address) →
      v.hostOp (.addSlave address) = (v, .failed .configError))

/-- R232: `add_block` in `Idle` appends the block, its cells at their initial value and every other cell as it was,
when the name is new, the range legal and no block of the category overlaps it; otherwise it is a ConfigError. -/
def Obligations.AddBlockAppends : Prop :=
  ∀ (v : Server) (k : Nat) (sl : Slave) (name : String) (cat : Category) (start length : Int),
    v.dispState = .idle → v.slaves.Pairwise (fun a b => a.addr ≠ b.addr) → v.slaves[k]? = some sl →
    ((∀ b ∈ sl.blocks, b.name ≠ name) → 0 ≤ start → 1 ≤ length → start + length ≤ 65536 →
      (∀ b ∈ sl.blocks, b.cat = cat → (b.start : Int) + b.length ≤ start ∨ start + length ≤ b.start) →
      ∃ sl' : Slave, v.hostOp (.addBlock sl.addr.toNat name cat start length) =
          ({ v with slaves := v.slaves.set k sl' }, .ok) ∧
        sl'.addr = sl.addr ∧
        sl'.blocks = sl.blocks ++ [{ name := name, cat := cat, start := start.toNat, length := length.toNat }] ∧
        (∀ x : Nat, start ≤ x → x < start + length → sl'.cells cat x 1 = initialCell cat) ∧
        (∀ (c : Category) (x : Nat), c ≠ cat ∨ x < start ∨ start + length ≤ x →
          sl'.cells c x 1 = sl.cells c x 1)) ∧
    ((∃ b ∈ sl.blocks, b.name = name) ∨ start < 0 ∨ length < 1 ∨ 65536 < start + length ∨
      (∃ b ∈ sl.blocks, b.cat = cat ∧ (b.start : Int) < start + length ∧ start < b.start + b.length) →
      v.hostOp (.addBlock sl.addr.toNat name cat start length) = (v, .failed .configError))

/-- R233: `set_values` in `Idle` stores every value at its address of the named block and leaves every other cell as
it was, when the range lies in the block and every value in the category's domain; otherwise it is a ConfigError and
nothing is stored. -/
def Obligations.SetValuesStoresAll : Prop :=
  ∀ (v : Server) (k : Nat) (sl : Slave) (name : String) (address : Int) (vals : List Int),
    v.dispState = .idle → v.slaves.Pairwise (fun a b => a.addr ≠ b.addr) → v.slaves[k]? = some sl → sl.Inv →
    (∀ b ∈ sl.blocks, b.name = name → b.start ≤ address → address + vals.length ≤ b.start + b.length →
      (∀ x ∈ vals, (cellOf b.cat x).isSome) →
      ∃ sl' : Slave, v.hostOp (.setValues sl.addr.toNat name address (.sequence vals)) =
          ({ v with slaves := v.slaves.set k sl' }, .ok) ∧
        sl'.addr = sl.addr ∧ sl'.blocks = sl.blocks ∧
        (∀ i, ∀ h : i < vals.length, cellOf b.cat vals[i] = some (sl'.cells b.cat (address.toNat + i) 1)) ∧
        (∀ (c : Category) (x : Nat), c ≠ b.cat ∨ (x : Int) < address ∨ address + vals.length ≤ x →
          sl'.cells c x 1 = sl.cells c x 1)) ∧
    ((∀ b ∈ sl.blocks, b.name ≠ name) ∨
      (∃ b ∈ sl.blocks, b.name = name ∧ (address < b.start ∨ (b.start : Int) + b.length < address + vals.length ∨
        ∃ x ∈ vals, cellOf b.cat x = none)) →
      v.hostOp (.setValues sl.addr.toNat name address (.sequence vals)) = (v, .failed .configError)) ∧
    (∀ x : Int, v.hostOp (.setValues sl.addr.toNat name address (.scalar x)) =
      v.hostOp (.setValues sl.addr.toNat name address (.sequence [x])))

/-- R237: configuration calls outside `Idle` fail with PreconditionViolation and change nothing. -/
def Obligations.ConfigurationOnlyInIdle : Prop :=
  ∀ v : Server, v.dispState ≠ .idle →
    (∀ address, v.hostOp (.addSlave address) = (v, .failed .preconditionViolation)) ∧
    (∀ slave name cat start length,
      v.hostOp (.addBlock slave name cat start length) = (v, .failed .preconditionViolation)) ∧
    (∀ slave name address vals,
      v.hostOp (.setValues slave name address vals) = (v, .failed .preconditionViolation))

/-- R236, R238: in every state `peek` answers what MemRead reads, or AddressOutOfRange, and `get_block` the named
block; neither changes the Server. -/
def Obligations.IntrospectionOnlyReads : Prop :=
  ∀ (v : Server) (k : Nat) (sl : Slave), v.slaves.Pairwise (fun a b => a.addr ≠ b.addr) →
    v.slaves[k]? = some sl →
    (∀ cat a n, sl.CoversAll cat a n →
      v.hostOp (.peek sl.addr.toNat cat a n) = (v, .values (sl.cells cat a n))) ∧
    (∀ cat a n, ¬ sl.CoversAll cat a n →
      v.hostOp (.peek sl.addr.toNat cat a n) = (v, .failed .addressOutOfRange)) ∧
    (∀ b ∈ sl.blocks, sl.Inv →
      v.hostOp (.getBlock sl.addr.toNat b.name) = (v, .block b (sl.cells b.cat b.start b.length))) ∧
    (∀ name, (∀ b ∈ sl.blocks, b.name ≠ name) →
      v.hostOp (.getBlock sl.addr.toNat name) = (v, .failed .configError))

/-- R270, R241: a host operation that fails leaves the Server as it was. -/
def Obligations.FailedHostOpsChangeNothing : Prop :=
  ∀ (op : HostOp) (s t : State) (f : HostFailure), handleEvent (.host op) s = .next t →
    t.replies = s.replies ++ [.failed f] → t.server = s.server
end

