-- ==== Sys2Proof/Laws/Codec.lean ====
section
/-! SUPPORT. The Codec's bytes and words: splitting, joining, lengths (R12, R165, R166). -/

namespace Sys2Proof

theorem countWithin_iff (limit n : Nat) : countWithin limit n = true ↔ 1 ≤ n ∧ n ≤ limit := by
  simp [countWithin]

theorem hi8_toNat (v : Word) : (hi8 v).toNat = v.toNat / 256 := by
  have := v.isLt
  simp only [hi8, BitVec.extractLsb'_toNat, Nat.shiftRight_eq_div_pow]
  omega

theorem lo8_toNat (v : Word) : (lo8 v).toNat = v.toNat % 256 := by
  simp [lo8, BitVec.extractLsb'_toNat]

theorem be16_toNat (b0 b1 : Byte) : (be16 b0 b1).toNat = b0.toNat * 256 + b1.toNat := by
  have := b0.isLt
  have := b1.isLt
  simp only [be16, BitVec.toNat_ofNat]
  omega

@[simp] theorem be16_hi8_lo8 (v : Word) : be16 (hi8 v) (lo8 v) = v := by
  apply BitVec.eq_of_toNat_eq
  rw [be16_toNat, hi8_toNat, lo8_toNat]
  omega

@[simp] theorem hi8_be16 (b0 b1 : Byte) : hi8 (be16 b0 b1) = b0 := by
  apply BitVec.eq_of_toNat_eq
  have := b1.isLt
  rw [hi8_toNat, be16_toNat]
  omega

@[simp] theorem lo8_be16 (b0 b1 : Byte) : lo8 (be16 b0 b1) = b1 := by
  apply BitVec.eq_of_toNat_eq
  have := b1.isLt
  rw [lo8_toNat, be16_toNat]
  omega

@[simp] theorem regsBytes_nil : regsBytes [] = [] := rfl

@[simp] theorem regsBytes_cons (v : Word) (vs : List Word) :
    regsBytes (v :: vs) = hi8 v :: lo8 v :: regsBytes vs := rfl

@[simp] theorem regsBytes_length (vs : List Word) : (regsBytes vs).length = 2 * vs.length := by
  induction vs with
  | nil => rfl
  | cons v vs ih => simp [ih]; omega

@[simp] theorem wordsOf_regsBytes (vs : List Word) : wordsOf (regsBytes vs) = vs := by
  induction vs with
  | nil => rfl
  | cons v vs ih => simp [wordsOf, ih]

theorem wordsOf_length : ∀ bs : List Byte, (wordsOf bs).length = bs.length / 2
  | [] => rfl
  | [_] => by simp [wordsOf]
  | hi :: lo :: rest => by simp [wordsOf, wordsOf_length rest]; omega

theorem regsBytes_wordsOf : ∀ bs : List Byte, bs.length % 2 = 0 → regsBytes (wordsOf bs) = bs
  | [], _ => rfl
  | [_], h => by simp at h
  | hi :: lo :: rest, h => by
    have h' : rest.length % 2 = 0 := by simp only [List.length_cons] at h; omega
    simp [wordsOf, regsBytes_wordsOf rest h']

@[simp] theorem encodeTwoWords_length (fc : Byte) (x y : Word) : (encodeTwoWords fc x y).length = 5 := rfl

@[simp] theorem encodeCounted_length (fc : Byte) (data : List Byte) :
    (encodeCounted fc data).length = data.length + 2 := rfl

@[simp] theorem encodeWrMulti_length (addr : Word) (vals : List Word) :
    (encodeWrMulti addr vals).length = 2 * vals.length + 6 := by
  simp [encodeWrMulti]; omega

theorem decode_cons (fc : Byte) (payload : List Byte) :
    decode (fc :: payload) =
      if fc = 0x01 then decodeTwoWords .rdCoils payload
      else if fc = 0x02 then decodeTwoWords .rdDiscrete payload
      else if fc = 0x03 then decodeTwoWords .rdHolding payload
      else if fc = 0x04 then decodeTwoWords .rdInput payload
      else if fc = 0x06 then decodeTwoWords .wrSingle payload
      else if fc = 0x10 then decodeWrMulti payload
      else .ok (.unsupported fc payload) := rfl

namespace Machine

@[simp] theorem packBits_length (v : List Bool) : (packBits v).length = (v.length + 7) / 8 := by
  simp [packBits]

@[simp] theorem crcBytes_length (q : List Byte) : (crcBytes q).length = 2 := rfl

@[simp] theorem frameOf_length (addr : Byte) (pdu : List Byte) : (frameOf addr pdu).length = pdu.length + 3 := by
  simp [frameOf]

theorem frameOf_ne_nil (addr : Byte) (pdu : List Byte) : frameOf addr pdu ≠ [] := by
  simp [frameOf]

/-- The PDU of a frame is what the frame was built from (R90, R102). -/
@[simp] theorem pduOf_frameOf (addr : Byte) (pdu : List Byte) : pduOf (frameOf addr pdu) = pdu := by
  simp only [pduOf, frameOf_length, show pdu.length + 3 - 2 = (addr :: pdu).length by simp]
  simp [frameOf]

/-- The bits of a sum of distinct powers of two. -/
theorem testBit_sum_pow (f : Nat → Bool) (k n : Nat) :
    ((List.range n).map fun i => if f i then 2 ^ i else 0).sum < 2 ^ n ∧
      (((List.range n).map fun i => if f i then 2 ^ i else 0).sum).testBit k = (decide (k < n) && f k) := by
  induction n with
  | zero => simp
  | succ n ih =>
    obtain ⟨h1, h2⟩ := ih
    rw [List.range_succ, List.map_append, List.sum_append]
    simp only [List.map_cons, List.map_nil, List.sum_cons, List.sum_nil, Nat.add_zero]
    revert h1 h2
    generalize ((List.range n).map fun i => if f i then 2 ^ i else 0).sum = x
    intro h1 h2
    refine ⟨by split <;> rw [pow_succ] <;> omega, ?_⟩
    by_cases hf : f n = true
    · rw [if_pos hf, Nat.add_comm]
      rcases Nat.lt_trichotomy k n with h | rfl | h
      · rw [Nat.testBit_two_pow_add_gt h, h2]
        simp [h, Nat.lt_succ_of_lt h]
      · rw [Nat.testBit_two_pow_add_eq, h2]
        simp [hf]
      · rw [Nat.testBit_lt_two_pow]
        · simp
          omega
        · calc 2 ^ n + x < 2 ^ (n + 1) := by rw [pow_succ]; omega
            _ ≤ 2 ^ k := Nat.pow_le_pow_right (by omega) h
    · by_cases hk : k = n
      · subst hk
        simp_all
      · rw [if_neg hf, Nat.add_zero, h2, show decide (k < n) = decide (k < n + 1) by simp; omega]

end Machine

end Sys2Proof
end

