-- ==== Sys2Proof/Laws/Crc.lean ====
section
/-! SUPPORT. The CRC-16: the strict evaluation is the plain fold, and how it goes over an appended byte (R140). -/

namespace Sys2Proof.Machine

@[simp] theorem withValue_eq {α : Type} (c : Word) (k : Word → α) : withValue c k = k c := by
  unfold withValue
  split
  · next h => rw [show c = 0 from BitVec.eq_of_toNat_eq (by simpa using h)]
  · next n h => rw [show n + 1 = c.toNat from h.symm]; simp

@[simp] theorem crcFrom_nil (c : Word) : crcFrom c [] = c := rfl

@[simp] theorem crcFrom_cons (c : Word) (b : Byte) (q : List Byte) :
    crcFrom c (b :: q) = crcFrom (crcByte c b) q := by
  simp [crcFrom]

theorem crcFrom_append (c : Word) (p q : List Byte) : crcFrom c (p ++ q) = crcFrom (crcFrom c p) q := by
  induction p generalizing c with
  | nil => rfl
  | cons b p ih => simp [ih]

theorem crc16_append (p q : List Byte) : crc16 (p ++ q) = crcFrom (crc16 p) q := crcFrom_append _ p q

/-- The CRC register is the plain left fold of the byte step. -/
theorem crcFrom_eq_foldl (c : Word) (q : List Byte) : crcFrom c q = q.foldl crcByte c := by
  induction q generalizing c with
  | nil => rfl
  | cons b q ih => simp [ih]

/-- The bit shifted out stands in the top bit of the result, so a shift loses nothing. -/
theorem crcShift_getLsbD_top (c : Word) : (crcShift c).getLsbD 15 = c.getLsbD 0 := by
  unfold crcShift
  split <;> simp_all

theorem crcShift_injective {c d : Word} (h : crcShift c = crcShift d) : c = d := by
  have h0 : c.getLsbD 0 = d.getLsbD 0 := by rw [← crcShift_getLsbD_top, h, crcShift_getLsbD_top]
  have hs : c >>> 1 = d >>> 1 := by
    unfold crcShift at h
    rw [h0] at h
    split at h
    · simpa [BitVec.xor_assoc] using congrArg (· ^^^ 0xA001#16) h
    · exact h
  apply BitVec.eq_of_getLsbD_eq
  intro i hi
  cases i with
  | zero => exact h0
  | succ i => simpa [BitVec.getLsbD_ushiftRight, Nat.add_comm] using congrArg (·.getLsbD i) hs

/-- The byte step loses nothing of the register. -/
theorem crcByte_injective {c d : Word} {b : Byte} (h : crcByte c b = crcByte d b) : c = d := by
  have shifts : ∀ (n : Nat) (x y : Word), Nat.repeat crcShift n x = Nat.repeat crcShift n y → x = y := by
    intro n
    induction n with
    | zero => exact fun _ _ h => h
    | succ n ih => exact fun x y h => ih x y (crcShift_injective h)
  simpa [BitVec.xor_assoc] using congrArg (· ^^^ b.setWidth 16) (shifts 8 _ _ h)

/-- As long as zeros are shifted out, a CRC shift is a plain shift. -/
theorem crcShift_repeat_of_low_zero (n : Nat) (c : Word) (h : ∀ i < n, c.getLsbD i = false) :
    Nat.repeat crcShift n c = c >>> n := by
  induction n with
  | zero => rfl
  | succ n ih =>
    show crcShift (Nat.repeat crcShift n c) = _
    rw [ih fun i hi => h i (by omega), crcShift, if_neg (by simpa using h n (by omega)), BitVec.shiftRight_add]

/-- The register's own low byte shifts it right by eight. -/
theorem crcByte_lo8 (c : Word) : crcByte c (lo8 c) = c >>> 8 := by
  have hl : ∀ i < 8, (c ^^^ (lo8 c).setWidth 16).getLsbD i = false := by
    intro i hi
    simp [lo8, hi]
    omega
  rw [crcByte, crcShift_repeat_of_low_zero 8 _ hl]
  apply BitVec.eq_of_getLsbD_eq
  intro i hi
  simp [lo8]

/-- The register's own two bytes, low byte first, clear it. -/
theorem crcByte_lo8_hi8 (c : Word) : crcByte (crcByte c (lo8 c)) (hi8 c) = 0 := by
  have hh : c >>> 8 = (hi8 c).setWidth 16 := by
    apply BitVec.eq_of_getLsbD_eq
    intro i hi
    by_cases h8 : i < 8
    · simp [hi8, h8, hi]
    · simp [hi8, h8]
      exact BitVec.getLsbD_of_ge _ _ (by omega)
  rw [crcByte_lo8, hh, crcByte, BitVec.xor_self]
  decide +kernel

end Sys2Proof.Machine
end

