-- ==== Sys2Proof/Laws/Memory.lean ====
section
/-! SUPPORT. One address space: read after write, and the canonical form kept by every operation. -/

namespace Sys2Proof.Machine

variable {α : Type}

@[simp] theorem Memory.read_nil (init : α) (a : Nat) : Memory.read init [] a = init := rfl

theorem Memory.read_cons (init : α) (k : Nat) (v : α) (m : Memory α) (a : Nat) :
    Memory.read init ((k, v) :: m) a = if k = a then v else Memory.read init m a := rfl

/-- An address below every listed one is not listed. -/
theorem Memory.read_of_lt (init : α) {m : Memory α} {a : Nat} (h : ∀ c ∈ m, a < c.1) :
    Memory.read init m a = init := by
  induction m with
  | nil => rfl
  | cons c m ih =>
    have hc := h c (by simp)
    rw [Memory.read_cons, if_neg (by omega)]
    exact ih fun d hd => h d (by simp [hd])

theorem Memory.wf_nil (init : α) : Memory.wf init [] :=
  ⟨List.Pairwise.nil, fun c hc => by cases hc⟩

theorem Memory.wf_cons (init : α) {c : Nat × α} {m : Memory α} :
    Memory.wf init (c :: m) ↔ (∀ d ∈ m, c.1 < d.1) ∧ c.2 ≠ init ∧ Memory.wf init m := by
  constructor
  · rintro ⟨h, h'⟩
    rw [List.pairwise_cons] at h
    exact ⟨h.1, h' c (by simp), h.2, fun d hd => h' d (by simp [hd])⟩
  · rintro ⟨h, hc, h', hm⟩
    refine ⟨List.pairwise_cons.2 ⟨h, h'⟩, fun d hd => ?_⟩
    rcases List.mem_cons.1 hd with rfl | hd
    · exact hc
    · exact hm d hd

variable [DecidableEq α]

/-- Every address a write leaves listed is the one written or was listed before. -/
theorem Memory.mem_write (init : α) {m : Memory α} {a : Nat} {v : α} {c : Nat × α}
    (h : c ∈ Memory.write init m a v) : c = (a, v) ∨ c ∈ m := by
  induction m with
  | nil => unfold Memory.write at h; split at h <;> simp_all
  | cons d m ih =>
    obtain ⟨k, w⟩ := d
    unfold Memory.write at h
    split at h
    · split at h <;> simp_all
    · split at h
      · split at h <;> simp_all; tauto
      · rcases List.mem_cons.1 h with rfl | h
        · simp
        · rcases ih h with h | h
          · exact .inl h
          · exact .inr (by simp [h])

theorem Memory.wf_write (init : α) {m : Memory α} (a : Nat) (v : α) (h : Memory.wf init m) :
    Memory.wf init (Memory.write init m a v) := by
  induction m with
  | nil =>
    unfold Memory.write
    split
    · exact h
    · next hv => exact (Memory.wf_cons init).2 ⟨by simp, hv, h⟩
  | cons d m ih =>
    obtain ⟨k, w⟩ := d
    obtain ⟨hlt, hw, hm⟩ := (Memory.wf_cons init).1 h
    unfold Memory.write
    split
    · split
      · exact h
      · next hk hv =>
        refine (Memory.wf_cons init).2 ⟨fun c hc => ?_, hv, h⟩
        rcases List.mem_cons.1 hc with rfl | hc
        · exact hk
        · exact lt_trans hk (hlt c hc)
    · split
      · next hk =>
        subst hk
        split
        · exact hm
        · next hv => exact (Memory.wf_cons init).2 ⟨hlt, hv, hm⟩
      · next hk hne =>
        refine (Memory.wf_cons init).2 ⟨fun c hc => ?_, hw, ih hm⟩
        rcases Memory.mem_write init hc with rfl | hc
        · exact lt_of_le_of_ne (by simpa using hk) fun h => hne h.symm
        · exact hlt c hc

theorem Memory.wf_writeSeq (init : α) {m : Memory α} (a : Nat) (vs : List α) (h : Memory.wf init m) :
    Memory.wf init (Memory.writeSeq init m a vs) := by
  induction vs generalizing m a with
  | nil => exact h
  | cons v vs ih => exact ih (a + 1) (Memory.wf_write init a v h)

omit [DecidableEq α] in
theorem Memory.wf_clear (init : α) {m : Memory α} (start length : Nat) (h : Memory.wf init m) :
    Memory.wf init (Memory.clear m start length) :=
  ⟨h.1.filter _, fun c hc => h.2 c (List.mem_filter.1 hc).1⟩

/-- Read after write, at the address written and at every other. -/
theorem Memory.read_write (init : α) {m : Memory α} (a b : Nat) (v : α) (h : Memory.wf init m) :
    Memory.read init (Memory.write init m a v) b = if b = a then v else Memory.read init m b := by
  induction m with
  | nil =>
    unfold Memory.write
    split
    · next hv => subst hv; simp
    · simp only [Memory.read_cons, eq_comm]
  | cons d m ih =>
    obtain ⟨k, w⟩ := d
    obtain ⟨hlt, -, hm⟩ := (Memory.wf_cons init).1 h
    have below : a ≤ k → Memory.read init m a = init := fun hk =>
      Memory.read_of_lt init fun c hc => lt_of_le_of_lt hk (hlt c hc)
    unfold Memory.write
    split
    · next hk =>
      split
      · next hv =>
        split
        · next hb => subst hb; rw [Memory.read_cons, if_neg (by omega), below hk.le, hv]
        · rfl
      · rw [Memory.read_cons]; simp only [eq_comm]
    · split
      · next hk =>
        subst hk
        split
        · next hv =>
          split
          · next hb => subst hb; rw [below le_rfl, hv]
          · next hb => rw [Memory.read_cons, if_neg (Ne.symm hb)]
        · rw [Memory.read_cons, Memory.read_cons]
          by_cases hb : a = b
          · rw [if_pos hb, if_pos hb.symm]
          · rw [if_neg hb, if_neg hb, if_neg (Ne.symm hb)]
      · next hk =>
        rw [Memory.read_cons, Memory.read_cons, ih hm]
        split <;> split <;> first | rfl | omega

/-- A sequence written is read back inside its range; every other address reads as before. -/
theorem Memory.read_writeSeq (init : α) {m : Memory α} (a b : Nat) (vs : List α) (h : Memory.wf init m) :
    Memory.read init (Memory.writeSeq init m a vs) b =
      if hb : a ≤ b ∧ b < a + vs.length then vs[b - a] else Memory.read init m b := by
  induction vs generalizing m a with
  | nil => rw [dif_neg (by simp)]; rfl
  | cons v vs ih =>
    rw [Memory.writeSeq, ih (a + 1) (Memory.wf_write init a v h), Memory.read_write init a b v h]
    simp only [List.length_cons]
    by_cases hb : b = a
    · subst hb
      rw [dif_neg (by omega), if_pos rfl, dif_pos (by omega)]
      simp
    · by_cases hr : a + 1 ≤ b ∧ b < a + 1 + vs.length
      · rw [dif_pos hr, dif_pos (by omega)]
        simp only [show b - a = (b - (a + 1)) + 1 by omega, List.getElem_cons_succ]
      · rw [dif_neg hr, if_neg hb, dif_neg (by omega)]

omit [DecidableEq α] in
/-- A cleared range reads as the initial value; every other address reads as before. -/
theorem Memory.read_clear (init : α) (m : Memory α) (start length b : Nat) :
    Memory.read init (Memory.clear m start length) b =
      if start ≤ b ∧ b < start + length then init else Memory.read init m b := by
  induction m with
  | nil => simp [Memory.clear]
  | cons c m ih =>
    obtain ⟨k, w⟩ := c
    have step : Memory.clear ((k, w) :: m) start length =
        if start ≤ k ∧ k < start + length then Memory.clear m start length
        else (k, w) :: Memory.clear m start length := by
      unfold Memory.clear
      rw [List.filter_cons]
      by_cases hk : start ≤ k ∧ k < start + length <;> simp [hk]
    rw [step, Memory.read_cons]
    split
    · next hk =>
      rw [ih]
      split
      · rfl
      · next hb => rw [if_neg (by rintro rfl; exact hb hk)]
    · next hk =>
      rw [Memory.read_cons, ih]
      by_cases hkb : k = b
      · subst hkb; simp [hk]
      · simp [hkb]

omit [DecidableEq α] in
@[simp] theorem Memory.readSeq_length (init : α) (m : Memory α) (a n : Nat) :
    (Memory.readSeq init m a n).length = n := by simp [Memory.readSeq]

omit [DecidableEq α] in
@[simp] theorem Memory.readSeq_getElem (init : α) (m : Memory α) (a n i : Nat)
    (h : i < (Memory.readSeq init m a n).length) :
    (Memory.readSeq init m a n)[i] = Memory.read init m (a + i) := by simp [Memory.readSeq]

omit [DecidableEq α] in
/-- Spaces in canonical form that read the same are the same data. -/
theorem Memory.ext_of_read (init : α) {m n : Memory α} (hm : Memory.wf init m) (hn : Memory.wf init n)
    (h : ∀ a, Memory.read init m a = Memory.read init n a) : m = n := by
  induction m generalizing n with
  | nil =>
    cases n with
    | nil => rfl
    | cons d n =>
      obtain ⟨-, hd, -⟩ := (Memory.wf_cons init).1 hn
      have := h d.1
      rw [Memory.read_nil, show d = (d.1, d.2) from rfl, Memory.read_cons, if_pos rfl] at this
      exact absurd this.symm hd
  | cons c m ih =>
    obtain ⟨hcm, hc, hm'⟩ := (Memory.wf_cons init).1 hm
    cases n with
    | nil =>
      have := h c.1
      rw [Memory.read_nil, show c = (c.1, c.2) from rfl, Memory.read_cons, if_pos rfl] at this
      exact absurd this hc
    | cons d n =>
      obtain ⟨hdn, hd, hn'⟩ := (Memory.wf_cons init).1 hn
      obtain ⟨k, v⟩ := c
      obtain ⟨l, w⟩ := d
      have read_above : ∀ (p : Memory α) (a : Nat), (∀ e ∈ p, a < e.1) → Memory.read init p a = init :=
        fun p a hp => Memory.read_of_lt init hp
      have hkl : k = l := by
        rcases lt_trichotomy k l with hlt | heq | hgt
        · have := h k
          rw [Memory.read_cons, if_pos rfl, Memory.read_cons, if_neg (by omega),
            read_above n k fun e he => lt_trans hlt (hdn e he)] at this
          exact absurd this hc
        · exact heq
        · have := h l
          rw [Memory.read_cons, if_neg (by omega), Memory.read_cons, if_pos rfl,
            read_above m l fun e he => lt_trans hgt (hcm e he)] at this
          exact absurd this.symm hd
      subst hkl
      have hvw := h k
      rw [Memory.read_cons, if_pos rfl, Memory.read_cons, if_pos rfl] at hvw
      subst hvw
      refine congrArg _ (ih hm' hn' fun a => ?_)
      have := h a
      rw [Memory.read_cons, Memory.read_cons] at this
      by_cases hka : k = a
      · subst hka
        rw [read_above m k hcm, read_above n k hdn]
      · simpa [hka] using this

end Sys2Proof.Machine
end

