-- ==== Sys2Proof/Laws/State.lean ====
section
/-! SUPPORT. One lemma per field per named update of a Server, so that no proof unfolds a record update. -/

namespace Sys2Proof.Machine

@[simp] theorem Server.storeSlave_dispState (v : Server) (sl : Slave) : (v.storeSlave sl).dispState = v.dispState := rfl
@[simp] theorem Server.storeSlave_rxBuf (v : Server) (sl : Slave) : (v.storeSlave sl).rxBuf = v.rxBuf := rfl
@[simp] theorem Server.storeSlave_rxLen (v : Server) (sl : Slave) : (v.storeSlave sl).rxLen = v.rxLen := rfl
@[simp] theorem Server.storeSlave_resync (v : Server) (sl : Slave) : (v.storeSlave sl).resync = v.resync := rfl
@[simp] theorem Server.storeSlave_gapTimer (v : Server) (sl : Slave) : (v.storeSlave sl).gapTimer = v.gapTimer := rfl
@[simp] theorem Server.storeSlave_curSlave (v : Server) (sl : Slave) : (v.storeSlave sl).curSlave = v.curSlave := rfl
@[simp] theorem Server.storeSlave_txBuf (v : Server) (sl : Slave) : (v.storeSlave sl).txBuf = v.txBuf := rfl
@[simp] theorem Server.storeSlave_txLen (v : Server) (sl : Slave) : (v.storeSlave sl).txLen = v.txLen := rfl
@[simp] theorem Server.storeSlave_txPos (v : Server) (sl : Slave) : (v.storeSlave sl).txPos = v.txPos := rfl
@[simp] theorem Server.storeSlave_slaves (v : Server) (sl : Slave) : (v.storeSlave sl).slaves = v.slaves.set v.curSlave sl := rfl

@[simp] theorem Server.load_dispState (v : Server) (addr : Byte) (pdu : List Byte) : (v.load addr pdu).dispState = .responding := rfl
@[simp] theorem Server.load_rxBuf (v : Server) (addr : Byte) (pdu : List Byte) : (v.load addr pdu).rxBuf = v.rxBuf := rfl
@[simp] theorem Server.load_rxLen (v : Server) (addr : Byte) (pdu : List Byte) : (v.load addr pdu).rxLen = 0 := rfl
@[simp] theorem Server.load_resync (v : Server) (addr : Byte) (pdu : List Byte) : (v.load addr pdu).resync = v.resync := rfl
@[simp] theorem Server.load_gapTimer (v : Server) (addr : Byte) (pdu : List Byte) : (v.load addr pdu).gapTimer = v.gapTimer := rfl
@[simp] theorem Server.load_curSlave (v : Server) (addr : Byte) (pdu : List Byte) : (v.load addr pdu).curSlave = v.curSlave := rfl
@[simp] theorem Server.load_txBuf (v : Server) (addr : Byte) (pdu : List Byte) : (v.load addr pdu).txBuf = frameOf addr pdu ++ v.txBuf.drop (frameOf addr pdu).length := rfl
@[simp] theorem Server.load_txLen (v : Server) (addr : Byte) (pdu : List Byte) : (v.load addr pdu).txLen = (frameOf addr pdu).length := rfl
@[simp] theorem Server.load_txPos (v : Server) (addr : Byte) (pdu : List Byte) : (v.load addr pdu).txPos = 0 := rfl
@[simp] theorem Server.load_slaves (v : Server) (addr : Byte) (pdu : List Byte) : (v.load addr pdu).slaves = v.slaves := rfl

@[simp] theorem Server.resume_dispState (v : Server) : (v.resume).dispState = .awaitingRequest := rfl
@[simp] theorem Server.resume_rxBuf (v : Server) : (v.resume).rxBuf = v.rxBuf := rfl
@[simp] theorem Server.resume_rxLen (v : Server) : (v.resume).rxLen = v.rxLen := rfl
@[simp] theorem Server.resume_resync (v : Server) : (v.resume).resync = v.resync := rfl
@[simp] theorem Server.resume_gapTimer (v : Server) : (v.resume).gapTimer = v.gapTimer := rfl
@[simp] theorem Server.resume_curSlave (v : Server) : (v.resume).curSlave = v.curSlave := rfl
@[simp] theorem Server.resume_txBuf (v : Server) : (v.resume).txBuf = v.txBuf := rfl
@[simp] theorem Server.resume_txLen (v : Server) : (v.resume).txLen = 0 := rfl
@[simp] theorem Server.resume_txPos (v : Server) : (v.resume).txPos = 0 := rfl
@[simp] theorem Server.resume_slaves (v : Server) : (v.resume).slaves = v.slaves := rfl

@[simp] theorem Server.appendByte_dispState (v : Server) (b : Byte) : (v.appendByte b).dispState = v.dispState := rfl
@[simp] theorem Server.appendByte_rxBuf (v : Server) (b : Byte) : (v.appendByte b).rxBuf = v.rxBuf.set v.rxLen b := rfl
@[simp] theorem Server.appendByte_rxLen (v : Server) (b : Byte) : (v.appendByte b).rxLen = v.rxLen + 1 := rfl
@[simp] theorem Server.appendByte_resync (v : Server) (b : Byte) : (v.appendByte b).resync = v.resync := rfl
@[simp] theorem Server.appendByte_gapTimer (v : Server) (b : Byte) : (v.appendByte b).gapTimer = 0 := rfl
@[simp] theorem Server.appendByte_curSlave (v : Server) (b : Byte) : (v.appendByte b).curSlave = v.curSlave := rfl
@[simp] theorem Server.appendByte_txBuf (v : Server) (b : Byte) : (v.appendByte b).txBuf = v.txBuf := rfl
@[simp] theorem Server.appendByte_txLen (v : Server) (b : Byte) : (v.appendByte b).txLen = v.txLen := rfl
@[simp] theorem Server.appendByte_txPos (v : Server) (b : Byte) : (v.appendByte b).txPos = v.txPos := rfl
@[simp] theorem Server.appendByte_slaves (v : Server) (b : Byte) : (v.appendByte b).slaves = v.slaves := rfl

end Sys2Proof.Machine
end

