-- ==== Sys2Proof/Laws/Ops.lean ====
section
/-! SUPPORT. What the shared operations can do, said once: sending a response, serving a request, reading and
writing the Store. -/

namespace Sys2Proof.Machine

/-! ## The Store -/

theorem Slave.coversRange_iff (sl : Slave) (cat : Category) (a n : Nat) :
    sl.coversRange cat a n = true ↔ ∀ i < n, sl.covered cat (a + i) = true := by
  simp [Slave.coversRange]

theorem Slave.memRead_eq_some {α : Type} {sl : Slave} {cat : Category} {init : α} {m : Memory α} {a n : Nat}
    (h : sl.coversRange cat a n = true) : sl.memRead cat init m a n = some (Memory.readSeq init m a n) := by
  simp [Slave.memRead, h]

theorem Slave.memRead_eq_none {α : Type} {sl : Slave} {cat : Category} {init : α} {m : Memory α} {a n : Nat}
    (h : sl.coversRange cat a n = false) : sl.memRead cat init m a n = none := by
  simp [Slave.memRead, h]

/-- What a successful write leaves: the four other parts as they were, the values in their places. -/
theorem Slave.writeHoldings_stored {sl sl' : Slave} {a : Nat} {vals : List Word}
    (hwf : Memory.wf Config.initReg sl.holdings) (h : sl.writeHoldings a vals = some sl') :
    StoredHoldings sl sl' a vals := by
  unfold Slave.writeHoldings at h
  split at h
  · obtain rfl := Option.some.inj h
    refine ⟨rfl, rfl, rfl, rfl, rfl, fun i hi => ?_, fun x hx => ?_⟩
    · simp only [Slave.holding]
      rw [Memory.read_writeSeq _ _ _ _ hwf, dif_pos (by omega)]
      simp
    · simp only [Slave.holding]
      rw [Memory.read_writeSeq _ _ _ _ hwf, dif_neg (by omega)]
  · cases h

theorem Slave.writeHoldings_eq_some {sl : Slave} {a : Nat} {vals : List Word}
    (h : sl.coversRange .holdingRegister a vals.length = true) :
    sl.writeHoldings a vals =
      some { sl with holdings := Memory.writeSeq Config.initReg sl.holdings a vals } := by
  simp [Slave.writeHoldings, h]

theorem Slave.writeHoldings_eq_none {sl : Slave} {a : Nat} {vals : List Word}
    (h : sl.coversRange .holdingRegister a vals.length = false) : sl.writeHoldings a vals = none := by
  simp [Slave.writeHoldings, h]

/-- A write keeps a Slave's invariant. -/
theorem Slave.writeHoldings_inv {sl sl' : Slave} {a : Nat} {vals : List Word} (hi : sl.Inv)
    (h : sl.writeHoldings a vals = some sl') : sl'.Inv := by
  unfold Slave.writeHoldings at h
  split at h
  · obtain rfl := Option.some.inj h
    exact { hi with holdingsWf := Memory.wf_writeSeq _ _ _ hi.holdingsWf }
  · cases h

/-- A write leaves everything of a Slave but its HoldingRegister space. -/
theorem Slave.writeHoldings_frame {sl sl' : Slave} {a : Nat} {vals : List Word}
    (h : sl.writeHoldings a vals = some sl') :
    sl'.addr = sl.addr ∧ sl'.blocks = sl.blocks ∧ sl'.coils = sl.coils ∧ sl'.discretes = sl.discretes ∧
      sl'.inputs = sl.inputs := by
  unfold Slave.writeHoldings at h
  split at h
  · obtain rfl := Option.some.inj h; simp
  · cases h

theorem Server.currentSlave_storeSlave {v : Server} {sl sl' : Slave} (h : v.currentSlave = some sl) :
    (v.storeSlave sl').currentSlave = some sl' := by
  unfold Server.currentSlave at h ⊢
  obtain ⟨hk, -⟩ := List.getElem?_eq_some_iff.1 h
  simp [List.getElem?_set_self hk]

theorem Server.storeSlave_self {v : Server} {sl : Slave} (h : v.currentSlave = some sl) : v.storeSlave sl = v := by
  unfold Server.currentSlave at h
  obtain ⟨hk, rfl⟩ := List.getElem?_eq_some_iff.1 h
  simp [Server.storeSlave]

theorem legalCount_iff (limit count : Nat) : legalCount limit count = true ↔ 1 ≤ count ∧ count ≤ limit := by
  simp [legalCount]

theorem legalCount_eq_false (limit count : Nat) :
    legalCount limit count = false ↔ ¬ (1 ≤ count ∧ count ≤ limit) := by
  rw [← legalCount_iff, Bool.not_eq_true]

theorem Slave.coversRange_eq_false (sl : Slave) (cat : Category) (a n : Nat) :
    sl.coversRange cat a n = false ↔ ¬ sl.CoversAll cat a n := by
  rw [← Bool.not_eq_true, Slave.coversRange_iff]
  rfl

/-! ## Sending a response -/

theorem respond_eq {s : State} {sl : Slave} (pdu : List Byte) (h : s.server.currentSlave = some sl) :
    respond pdu s = .next { s with server := s.server.load sl.addr pdu } := by
  simp [respond, h]

theorem respond_next {s t : State} {pdu : List Byte} (h : respond pdu s = .next t) :
    ∃ sl, s.server.currentSlave = some sl ∧ t = { s with server := s.server.load sl.addr pdu } := by
  unfold respond at h
  split at h
  · cases h
  · next sl hsl => exact ⟨sl, hsl, by injection h with h; exact h.symm⟩

/-- The response frame stands at the head of the transmit buffer. -/
theorem Server.load_frame (v : Server) (addr : Byte) (pdu : List Byte) :
    (v.load addr pdu).txBuf.take (v.load addr pdu).txLen = frameOf addr pdu := by
  rw [Server.load_txBuf, Server.load_txLen, List.take_left]

/-- The transmit buffer is as it was beyond the response frame. -/
theorem Server.load_rest (v : Server) (addr : Byte) (pdu : List Byte) :
    (v.load addr pdu).txBuf.drop (v.load addr pdu).txLen = v.txBuf.drop (v.load addr pdu).txLen := by
  rw [Server.load_txBuf, Server.load_txLen, List.drop_left]

/-- A Server with a response loaded answers with it; the Slaves it holds do not matter. -/
theorem answers_load {s : State} {v : Server} (addr : Byte) (pdu : List Byte)
    (hv : v = s.server ∨ ∃ sl, v = s.server.storeSlave sl) :
    Answers s { s with server := v.load addr pdu } addr pdu := by
  rcases hv with rfl | ⟨sl, rfl⟩ <;>
    exact ⟨Server.load_frame _ _ _, by simp, Server.load_rest _ _ _, rfl, rfl, rfl, rfl, rfl, rfl, rfl, rfl, rfl, rfl⟩

/-- Sending a response: the answer, and the Store as it was. -/
theorem respond_answers {s : State} {sl : Slave} (pdu : List Byte) (h : s.server.currentSlave = some sl) :
    ∃ t, respond pdu s = .next t ∧ Answers s t sl.addr pdu ∧ t.server.slaves = s.server.slaves :=
  ⟨_, respond_eq pdu h, answers_load _ _ (.inl rfl), rfl⟩

/-! ## Serving a request -/

section
variable {fc : Byte} {legal failure : Bool} {work : Slave → Option (List Byte × Slave)} {s : State} {sl : Slave}

theorem serveRequest_illegal (hs : s.server.currentSlave = some sl) (hl : legal = false) :
    serveRequest fc legal failure work s = raiseException fc .illegalDataValue s := by
  simp [serveRequest, hs, hl]

theorem serveRequest_uncovered (hs : s.server.currentSlave = some sl) (hl : legal = true) (hw : work sl = none) :
    serveRequest fc legal failure work s = raiseException fc .illegalDataAddress s := by
  simp [serveRequest, hs, hl, hw]

theorem serveRequest_failure {r : List Byte × Slave} (hs : s.server.currentSlave = some sl) (hl : legal = true)
    (hf : failure = true) (hw : work sl = some r) :
    serveRequest fc legal failure work s = raiseException fc .slaveDeviceFailure s := by
  simp [serveRequest, hs, hl, hf, hw]

theorem serveRequest_success {pdu : List Byte} {sl' : Slave} (hs : s.server.currentSlave = some sl) (hl : legal = true)
    (hf : failure = false) (hw : work sl = some (pdu, sl')) :
    serveRequest fc legal failure work s = respond pdu { s with server := s.server.storeSlave sl' } := by
  simp [serveRequest, hs, hl, hf, hw]

/-- A request that reads: its answer, the Store as it was. -/
theorem serveRequest_read {pdu : List Byte} (hs : s.server.currentSlave = some sl) (hl : legal = true)
    (hf : failure = false) (hw : work sl = some (pdu, sl)) :
    ∃ t, serveRequest fc legal failure work s = .next t ∧ Answers s t sl.addr pdu ∧
      t.server.slaves = s.server.slaves := by
  rw [serveRequest_success hs hl hf hw, Server.storeSlave_self hs]
  exact respond_answers pdu hs

/-- A request that writes: its answer, and the Slave the write left. -/
theorem serveRequest_write {pdu : List Byte} {sl' : Slave} (hs : s.server.currentSlave = some sl) (hl : legal = true)
    (hf : failure = false) (hw : work sl = some (pdu, sl')) (ha : sl'.addr = sl.addr) :
    ∃ t, serveRequest fc legal failure work s = .next t ∧ Answers s t sl.addr pdu ∧
      t.server.slaves = s.server.slaves.set s.server.curSlave sl' := by
  refine ⟨_, (serveRequest_success hs hl hf hw).trans (respond_eq pdu (Server.currentSlave_storeSlave hs)), ?_, rfl⟩
  rw [ha]
  exact answers_load sl.addr pdu (.inr ⟨sl', rfl⟩)

/-- Everything a served request can do: an exception with the Store as it was, or the response and the Slave that
its work left. -/
theorem serveRequest_next {t : State} (h : serveRequest fc legal failure work s = .next t) :
    ∃ sl, s.server.currentSlave = some sl ∧
      ((∃ code, t = { s with server := s.server.load sl.addr (exceptionPdu fc code) }) ∨
        legal = true ∧ ∃ pdu sl', work sl = some (pdu, sl') ∧
          t = { s with server := (s.server.storeSlave sl').load sl'.addr pdu }) := by
  unfold serveRequest at h
  cases hs : s.server.currentSlave with
  | none => simp [hs] at h
  | some sl =>
    have exc : ∀ code, raiseException fc code s = .next t →
        t = { s with server := s.server.load sl.addr (exceptionPdu fc code) } := by
      intro code hc
      rw [raiseException, respond_eq _ hs] at hc
      injection hc with hc
      exact hc.symm
    simp only [hs] at h
    refine ⟨sl, rfl, ?_⟩
    split at h
    · next hl =>
      cases hw : work sl with
      | none => simp only [hw] at h; exact .inl ⟨_, exc _ h⟩
      | some r =>
        obtain ⟨pdu, sl'⟩ := r
        simp only [hw] at h
        split at h
        · exact .inl ⟨_, exc _ h⟩
        · rw [respond_eq _ (Server.currentSlave_storeSlave hs)] at h
          injection h with h
          exact .inr ⟨hl, pdu, sl', rfl, h.symm⟩
    · exact .inl ⟨_, exc _ h⟩

end

/-- An instruction that raises an exception answers with it and stores nothing. -/
theorem answersException_of_raise {i : Instr} {s : State} {sl : Slave} {fc : Byte} {code : ExceptionCode}
    (hs : s.server.currentSlave = some sl) (h : exec i s = raiseException fc code s) :
    AnswersException i s sl (fc ||| 0x80) code.number := by
  obtain ⟨t, ht, ha, hst⟩ := respond_answers (exceptionPdu fc code) hs
  exact ⟨t, h.trans ht, ha, hst⟩

theorem sendResponse_eq {rsp : Instr} (s : State) (h : rsp.wellFormed = true) :
    sendResponse rsp s = respond (encode rsp) s := by
  simp [sendResponse, h]

end Sys2Proof.Machine
end

