-- ==== Sys2Proof/Laws/Exec.lean ====
section
/-! SUPPORT. What executing an instruction can do, said once for all instructions. -/

namespace Sys2Proof.Machine

/-- What `exec` leaves when it answers a next state: a response of some bytes, loaded for transmission, and the
current Slave as it was or with a range of HoldingRegister addresses written. -/
structure Executed (s t : State) (sl sl' : Slave) (pdu : List Byte) : Prop where
  current : s.server.currentSlave = some sl
  slave : sl' = sl ∨ ∃ a vals, sl.writeHoldings a vals = some sl'
  eq : t = { s with server := (s.server.storeSlave sl').load sl.addr pdu }

theorem Executed.addr {s t : State} {sl sl' : Slave} {pdu : List Byte} (h : Executed s t sl sl' pdu) :
    sl'.addr = sl.addr := by
  rcases h.slave with rfl | ⟨a, vals, hw⟩
  · rfl
  · exact (Slave.writeHoldings_frame hw).1

theorem executed_same {s t : State} {sl : Slave} {pdu : List Byte} (hs : s.server.currentSlave = some sl)
    (h : t = { s with server := s.server.load sl.addr pdu }) : Executed s t sl sl pdu :=
  ⟨hs, .inl rfl, by rw [Server.storeSlave_self hs]; exact h⟩

theorem respond_executed {s t : State} {pdu : List Byte} (h : respond pdu s = .next t) :
    ∃ sl, Executed s t sl sl pdu := by
  obtain ⟨sl, hs, ht⟩ := respond_next h
  exact ⟨sl, executed_same hs ht⟩

/-- A served request whose work keeps the Slave or writes HoldingRegisters, and whose response is short. -/
theorem serveRequest_executed {fc : Byte} {legal failure : Bool} {work : Slave → Option (List Byte × Slave)}
    {s t : State} (h : serveRequest fc legal failure work s = .next t)
    (hw : ∀ sl pdu sl', legal = true → work sl = some (pdu, sl') →
      pdu.length ≤ 252 ∧ (sl' = sl ∨ ∃ a vals, sl.writeHoldings a vals = some sl')) :
    ∃ sl sl' pdu, pdu.length ≤ 252 ∧ Executed s t sl sl' pdu := by
  obtain ⟨sl, hs, ⟨code, ht⟩ | ⟨hl, pdu, sl', hwork, ht⟩⟩ := serveRequest_next h
  · exact ⟨sl, sl, _, by simp [exceptionPdu], executed_same hs ht⟩
  · obtain ⟨hlen, hsl⟩ := hw sl pdu sl' hl hwork
    refine ⟨sl, sl', pdu, hlen, hs, hsl, ?_⟩
    rcases hsl with rfl | ⟨a, vals, hv⟩
    · exact ht
    · rw [(Slave.writeHoldings_frame hv).1] at ht; exact ht

/-- What a read's work can answer. -/
theorem memRead_length {α : Type} {sl : Slave} {cat : Category} {init : α} {m : Memory α} {a n : Nat} {v : List α}
    (h : sl.memRead cat init m a n = some v) : v.length = n := by
  unfold Slave.memRead at h
  split at h
  · obtain rfl := Option.some.inj h; simp
  · cases h

/-- Every request that is executed: a response PDU of at most 252 bytes (R160), the Store kept or written in one
range of HoldingRegister addresses (R160, R180). -/
theorem exec_request_executed {i : Instr} {s t : State} (hi : i.isRequest = true) (h : exec i s = .next t) :
    ∃ sl sl' pdu, pdu.length ≤ 252 ∧ Executed s t sl sl' pdu := by
  cases i with
  | rdCoils addr count =>
    refine serveRequest_executed h fun sl pdu sl' hl hw => ?_
    obtain ⟨v, hv, he⟩ := Option.map_eq_some_iff.1 hw
    obtain ⟨rfl, rfl⟩ := Prod.mk.inj he
    rw [legalCount_iff, Config.maxReadBits] at hl
    have := memRead_length hv
    exact ⟨by simp [encode]; omega, .inl rfl⟩
  | rdDiscrete addr count =>
    refine serveRequest_executed h fun sl pdu sl' hl hw => ?_
    obtain ⟨v, hv, he⟩ := Option.map_eq_some_iff.1 hw
    obtain ⟨rfl, rfl⟩ := Prod.mk.inj he
    rw [legalCount_iff, Config.maxReadBits] at hl
    have := memRead_length hv
    exact ⟨by simp [encode]; omega, .inl rfl⟩
  | rdHolding addr count =>
    refine serveRequest_executed h fun sl pdu sl' hl hw => ?_
    obtain ⟨v, hv, he⟩ := Option.map_eq_some_iff.1 hw
    obtain ⟨rfl, rfl⟩ := Prod.mk.inj he
    rw [legalCount_iff, Config.maxReadRegs] at hl
    have := memRead_length hv
    exact ⟨by simp [encode]; omega, .inl rfl⟩
  | rdInput addr count =>
    refine serveRequest_executed h fun sl pdu sl' hl hw => ?_
    obtain ⟨v, hv, he⟩ := Option.map_eq_some_iff.1 hw
    obtain ⟨rfl, rfl⟩ := Prod.mk.inj he
    rw [legalCount_iff, Config.maxReadRegs] at hl
    have := memRead_length hv
    exact ⟨by simp [encode]; omega, .inl rfl⟩
  | wrSingle addr value =>
    refine serveRequest_executed h fun sl pdu sl' hl hw => ?_
    obtain ⟨v, hv, he⟩ := Option.map_eq_some_iff.1 hw
    obtain ⟨rfl, rfl⟩ := Prod.mk.inj he
    exact ⟨by simp [encode], .inr ⟨_, _, hv⟩⟩
  | wrMulti addr vals =>
    refine serveRequest_executed h fun sl pdu sl' hl hw => ?_
    obtain ⟨v, hv, he⟩ := Option.map_eq_some_iff.1 hw
    obtain ⟨rfl, rfl⟩ := Prod.mk.inj he
    exact ⟨by simp [encode], .inr ⟨_, _, hv⟩⟩
  | unsupported fc payload =>
    obtain ⟨sl, he⟩ := respond_executed h
    exact ⟨sl, sl, _, by simp [exceptionPdu], he⟩
  | rspRdCoils data => cases hi
  | rspRdDiscrete data => cases hi
  | rspRdHolding vals => cases hi
  | rspRdInput vals => cases hi
  | rspWrSingle addr value => cases hi
  | rspWrMulti addr count => cases hi
  | rspException fc code => cases hi

/-- What the decoder gives is a request. -/
theorem decode_isRequest {p : List Byte} {i : Instr} (h : decode p = .ok i) : i.isRequest = true := by
  have two : ∀ (mk : Word → Word → Instr) (q : List Byte), (∀ x y, (mk x y).isRequest = true) →
      decodeTwoWords mk q = .ok i → i.isRequest = true := by
    intro mk q hmk hq
    unfold decodeTwoWords at hq
    split at hq
    · injection hq with hq; exact hq ▸ hmk _ _
    · cases hq
  cases p with
  | nil => cases h
  | cons fc q =>
    rw [decode_cons] at h
    split at h
    · exact two _ _ (fun _ _ => rfl) h
    split at h
    · exact two _ _ (fun _ _ => rfl) h
    split at h
    · exact two _ _ (fun _ _ => rfl) h
    split at h
    · exact two _ _ (fun _ _ => rfl) h
    split at h
    · exact two _ _ (fun _ _ => rfl) h
    split at h
    · unfold decodeWrMulti at h
      split at h
      · split at h
        · injection h with h; exact h ▸ rfl
        · cases h
      · cases h
    · injection h with h; exact h ▸ rfl

/-- A served request has a next state whenever there is a Slave to serve it. -/
theorem serveRequest_has_next {s : State} {sl : Slave} (hs : s.server.currentSlave = some sl) (fc : Byte)
    (legal failure : Bool) (work : Slave → Option (List Byte × Slave)) :
    ∃ t, serveRequest fc legal failure work s = .next t := by
  unfold serveRequest
  simp only [hs]
  split
  · split
    · exact ⟨_, respond_eq _ hs⟩
    · split
      · exact ⟨_, respond_eq _ hs⟩
      · exact ⟨_, respond_eq _ (Server.currentSlave_storeSlave hs)⟩
  · exact ⟨_, respond_eq _ hs⟩

/-- Every request has a next state whenever there is a Slave to serve it. -/
theorem exec_request_has_next {i : Instr} {s : State} {sl : Slave} (hi : i.isRequest = true)
    (hs : s.server.currentSlave = some sl) : ∃ t, exec i s = .next t := by
  cases i with
  | rdCoils addr count => exact serveRequest_has_next hs _ _ _ _
  | rdDiscrete addr count => exact serveRequest_has_next hs _ _ _ _
  | rdHolding addr count => exact serveRequest_has_next hs _ _ _ _
  | rdInput addr count => exact serveRequest_has_next hs _ _ _ _
  | wrSingle addr value => exact serveRequest_has_next hs _ _ _ _
  | wrMulti addr vals => exact serveRequest_has_next hs _ _ _ _
  | unsupported fc payload => exact ⟨_, respond_eq _ hs⟩
  | rspRdCoils data => cases hi
  | rspRdDiscrete data => cases hi
  | rspRdHolding vals => cases hi
  | rspRdInput vals => cases hi
  | rspWrSingle addr value => cases hi
  | rspWrMulti addr count => cases hi
  | rspException fc code => cases hi

/-- Everything the Process step can do: nothing, or answer a request. -/
theorem process_next {s t : State} (h : process s = .next t) :
    t = s ∨ s.server.dispState = .processing ∧ ∃ sl sl' pdu, pdu.length ≤ 252 ∧ Executed s t sl sl' pdu := by
  unfold process at h
  split at h
  · next hp =>
    split at h
    · next i hd => exact .inr ⟨hp, exec_request_executed (decode_isRequest hd) h⟩
    · cases h
    · obtain ⟨sl, he⟩ := respond_executed h
      exact .inr ⟨hp, sl, sl, _, by simp [exceptionPdu], he⟩
  · injection h with h
    exact .inl h.symm

end Sys2Proof.Machine
end

