-- ==== Sys2Proof/Laws/Framer.lean ====
section
/-! SUPPORT. What the Frame Validator and the Framer can do, said once. -/

namespace Sys2Proof.Machine

/-- A frame the Validator accepts passed its three checks (R142). -/
theorem validate_accept {addrs : List Byte} {f : List Byte} {k : Nat} (h : validate addrs f = .accept k) :
    Config.minFrame ≤ f.length ∧ crcOk f = true ∧ addrs.findIdx? (· == f.getD 0 0) = some k := by
  unfold validate at h
  split at h
  · cases h
  · next hl =>
    split at h
    · cases h
    · next hc =>
      split at h
      · cases h
      · next j hj =>
        injection h with h
        exact ⟨by omega, by simpa using hc, h ▸ hj⟩

/-- Completing a frame drops it, which only empties the buffer, or accepts it for the Slave of its address. -/
theorem Server.completeFrame_cases (v : Server) :
    v.completeFrame = { v with rxLen := 0 } ∨
      ∃ k sl, v.slaves[k]? = some sl ∧ Config.minFrame ≤ v.frame.length ∧ crcOk v.frame = true ∧
        v.frame[0]? = some sl.addr ∧ v.completeFrame = { v with curSlave := k, dispState := .processing } := by
  unfold Server.completeFrame
  split
  · exact .inl rfl
  · next k hk =>
    obtain ⟨hl, hc, hi⟩ := validate_accept hk
    obtain ⟨hlt, hp, -⟩ := List.findIdx?_eq_some_iff_getElem.1 hi
    have hlt' : k < v.slaves.length := by simpa using hlt
    have hpos : 0 < v.frame.length := lt_of_lt_of_le (by decide) hl
    refine .inr ⟨k, v.slaves[k], List.getElem?_eq_getElem hlt', hl, hc, ?_, rfl⟩
    have ha : v.slaves[k].addr = v.frame[0] := by
      simpa [List.getD_eq_getElem?_getD, List.getElem?_eq_getElem hpos] using hp
    rw [List.getElem?_eq_getElem hpos, ha]

/-- An appended byte extends the frame by that byte, while the buffer has room (R131). -/
theorem Server.frame_appendByte (v : Server) (b : Byte) (h : v.rxLen < v.rxBuf.length) :
    (v.appendByte b).frame = v.frame ++ [b] := by
  simp only [Server.frame, Server.appendByte_rxBuf, Server.appendByte_rxLen]
  rw [List.take_add_one, List.getElem?_set_self h, List.take_set_of_le le_rfl]
  rfl

/-- A frame is as long as `rx_len` says, inside the buffer (R28). -/
theorem Server.frame_length (v : Server) (h : v.rxLen ≤ v.rxBuf.length) : v.frame.length = v.rxLen := by
  simp [Server.frame, h]

/-- Completing a frame changes no Slave. -/
theorem Server.completeFrame_slaves (v : Server) : v.completeFrame.slaves = v.slaves := by
  rcases v.completeFrame_cases with h | ⟨k, sl, -, -, -, -, h⟩ <;> rw [h]

end Sys2Proof.Machine
end

