-- ==== Sys2Proof/Laws/HostOps.lean ====
section
/-! SUPPORT. What the host's configuration operations can do, said once each: fail and change nothing, or change
one Slave. -/

namespace Sys2Proof.Machine

/-- A Slave found by its address stands at its index. -/
theorem Server.slaveAt_eq_some {v : Server} {address k : Nat} {sl : Slave} (h : v.slaveAt address = some (k, sl)) :
    v.slaves[k]? = some sl ∧ sl.addr.toNat = address := by
  unfold Server.slaveAt at h
  obtain ⟨j, hj, h⟩ := Option.bind_eq_some_iff.1 h
  obtain ⟨x, hx, h⟩ := Option.map_eq_some_iff.1 h
  obtain ⟨rfl, rfl⟩ := Prod.mk.inj h
  refine ⟨hx, ?_⟩
  obtain ⟨hlt, hp, -⟩ := List.findIdx?_eq_some_iff_getElem.1 hj
  obtain ⟨-, rfl⟩ := List.getElem?_eq_some_iff.1 hx
  exact of_decide_eq_true hp

/-- With distinct addresses, a Slave is found at its own index. -/
theorem Server.slaveAt_of_distinct {v : Server} {k : Nat} {sl : Slave}
    (hd : v.slaves.Pairwise fun a b => a.addr ≠ b.addr) (hk : v.slaves[k]? = some sl) :
    v.slaveAt sl.addr.toNat = some (k, sl) := by
  obtain ⟨hlt, rfl⟩ := List.getElem?_eq_some_iff.1 hk
  have : v.slaveIndex v.slaves[k].addr.toNat = some k := by
    unfold Server.slaveIndex
    rw [List.findIdx?_eq_some_iff_getElem]
    refine ⟨hlt, by simp, fun j hj => ?_⟩
    have hne := List.pairwise_iff_getElem.1 hd j k (by omega) hlt hj
    simpa [← BitVec.toNat_eq] using hne
  simp [Server.slaveAt, this]

theorem Server.addSlave_cases (v : Server) (address : Int) :
    (∃ f, v.addSlave address = (v, .failed f)) ∨
      v.dispState = .idle ∧ 1 ≤ address ∧ address ≤ 247 ∧
        (∀ sl ∈ v.slaves, sl.addr.toNat ≠ address.toNat) ∧
        v.addSlave address =
          ({ v with slaves := v.slaves ++ [Slave.created (BitVec.ofNat 8 address.toNat)] }, .ok) := by
  unfold Server.addSlave
  split
  · exact .inl ⟨_, rfl⟩
  · split
    · exact .inl ⟨_, rfl⟩
    · next hi h =>
      simp only [not_or, not_lt, Bool.not_eq_true, Option.isSome_eq_false_iff, Option.isNone_iff_eq_none] at h
      obtain ⟨h1, h2, h3⟩ := h
      refine .inr ⟨by simpa using hi, h1, h2, fun sl hsl => ?_, rfl⟩
      have := (List.findIdx?_eq_none_iff.1 h3) sl hsl
      simpa using this

theorem Server.addBlock_cases (v : Server) (slave : Nat) (name : String) (cat : Category) (start length : Int) :
    (∃ f, v.addBlock slave name cat start length = (v, .failed f)) ∨
      v.dispState = .idle ∧ ∃ k sl sl', v.slaveAt slave = some (k, sl) ∧
        sl.addBlock name cat start length = some sl' ∧
        v.addBlock slave name cat start length = ({ v with slaves := v.slaves.set k sl' }, .ok) := by
  unfold Server.addBlock
  split
  · exact .inl ⟨_, rfl⟩
  · next hi =>
    cases hk : v.slaveAt slave with
    | none => exact .inl ⟨_, rfl⟩
    | some p =>
      obtain ⟨k, sl⟩ := p
      cases hb : sl.addBlock name cat start length with
      | none => exact .inl ⟨.configError, by simp [hb]⟩
      | some sl' => exact .inr ⟨by simpa using hi, k, sl, sl', rfl, hb, by simp [hb]⟩

theorem Server.setValues_cases (v : Server) (slave : Nat) (name : String) (address : Int) (vals : Values) :
    (∃ f, v.setValues slave name address vals = (v, .failed f)) ∨
      v.dispState = .idle ∧ ∃ k sl sl', v.slaveAt slave = some (k, sl) ∧
        sl.setValues name address vals.toList = some sl' ∧
        v.setValues slave name address vals = ({ v with slaves := v.slaves.set k sl' }, .ok) := by
  unfold Server.setValues
  split
  · exact .inl ⟨_, rfl⟩
  · next hi =>
    cases hk : v.slaveAt slave with
    | none => exact .inl ⟨_, rfl⟩
    | some p =>
      obtain ⟨k, sl⟩ := p
      cases hb : sl.setValues name address vals.toList with
      | none => exact .inl ⟨.configError, by simp [hb]⟩
      | some sl' => exact .inr ⟨by simpa using hi, k, sl, sl', rfl, hb, by simp [hb]⟩

theorem Server.start_cases (v : Server) (c : Bool) :
    (∃ f, v.start c = (v, .failed f)) ∨
      v.dispState = .idle ∧ v.start c = ({ v with
        rxLen := 0, resync := false, gapTimer := 0, txLen := 0, txPos := 0, dispState := .awaitingRequest }, .ok) := by
  unfold Server.start
  split
  · exact .inl ⟨_, rfl⟩
  · next hi =>
    cases c
    · exact .inl ⟨_, rfl⟩
    · exact .inr ⟨by simpa using hi, rfl⟩

theorem Server.stop_cases (v : Server) :
    (∃ f, v.stop = (v, .failed f)) ∨
      v.ownsChannel = true ∧
        v.stop = ({ v with rxLen := 0, txLen := 0, txPos := 0, resync := false, dispState := .stopped }, .ok) := by
  unfold Server.stop
  split
  · next h => exact .inr ⟨h, rfl⟩
  · exact .inl ⟨_, rfl⟩

/-- A block added: the table longer by one row, the cells of its range at their initial value. -/
theorem Slave.addBlock_eq_some {sl sl' : Slave} {name : String} {cat : Category} {start length : Int}
    (h : sl.addBlock name cat start length = some sl') :
    0 ≤ start ∧ sl.admits { name := name, cat := cat, start := start.toNat, length := length.toNat } = true ∧
      sl' = { sl.clearCells cat start.toNat length.toNat with
        blocks := sl.blocks ++ [{ name := name, cat := cat, start := start.toNat, length := length.toNat }] } := by
  unfold Slave.addBlock at h
  simp only at h
  split at h
  · next hc => exact ⟨hc.1, hc.2, (Option.some.inj h).symm⟩
  · cases h

theorem Slave.clearCells_inv {sl : Slave} (cat : Category) (start length : Nat) (h : sl.Inv) :
    (sl.clearCells cat start length).Inv := by
  cases cat
  · exact { h with coilsWf := Memory.wf_clear _ _ _ h.coilsWf }
  · exact { h with discretesWf := Memory.wf_clear _ _ _ h.discretesWf }
  · exact { h with inputsWf := Memory.wf_clear _ _ _ h.inputsWf }
  · exact { h with holdingsWf := Memory.wf_clear _ _ _ h.holdingsWf }

@[simp] theorem Slave.clearCells_addr (sl : Slave) (cat : Category) (start length : Nat) :
    (sl.clearCells cat start length).addr = sl.addr := by cases cat <;> rfl

@[simp] theorem Slave.clearCells_blocks (sl : Slave) (cat : Category) (start length : Nat) :
    (sl.clearCells cat start length).blocks = sl.blocks := by cases cat <;> rfl

/-- Adding a block keeps a Slave's invariant and its address. -/
theorem Slave.addBlock_inv {sl sl' : Slave} {name : String} {cat : Category} {start length : Int} (hi : sl.Inv)
    (h : sl.addBlock name cat start length = some sl') : sl'.Inv ∧ sl'.addr = sl.addr := by
  obtain ⟨-, ha, rfl⟩ := Slave.addBlock_eq_some h
  have hc := Slave.clearCells_inv cat start.toNat length.toNat hi
  refine ⟨?_, by simp⟩
  simp only [Slave.admits, Bool.and_eq_true, decide_eq_true_eq, Option.isNone_iff_eq_none, Bool.not_eq_true',
    Slave.blockNamed, List.find?_eq_none] at ha
  obtain ⟨⟨hb, hn⟩, ho⟩ := ha
  refine { hc with namesUnique := ?_, blocksDisjoint := ?_, blocksBounded := ?_ }
  · refine List.pairwise_append.2 ⟨hi.namesUnique, List.pairwise_singleton _ _, fun b hb' c hc' => ?_⟩
    obtain rfl := List.mem_singleton.1 hc'
    simpa using hn b hb'
  · refine List.pairwise_append.2 ⟨hi.blocksDisjoint, List.pairwise_singleton _ _, fun b hb' c hc' => ?_⟩
    obtain rfl := List.mem_singleton.1 hc'
    have := List.any_eq_false.1 ho b hb'
    simp only [Block.overlaps, Bool.and_eq_true, decide_eq_true_eq, not_and] at this
    simp only [Block.overlaps, Bool.and_eq_false_imp, decide_eq_true_eq, decide_eq_false_iff_not]
    intro h1 h2
    exact this h1.symm h2.2 h2.1
  · intro b hb'
    rcases List.mem_append.1 hb' with hb' | hb'
    · exact hi.blocksBounded b hb'
    · obtain rfl := List.mem_singleton.1 hb'
      exact hb

/-- Storing values keeps a Slave's invariant, its address and its block table. -/
theorem Slave.storeValues_inv {sl sl' : Slave} {cat : Category} {a : Nat} {vals : List Int}
    (h : sl.storeValues cat a vals = some sl') :
    (sl.Inv → sl'.Inv) ∧ sl'.addr = sl.addr ∧ sl'.blocks = sl.blocks := by
  cases cat <;> (
    simp only [Slave.storeValues] at h
    obtain ⟨vs, -, rfl⟩ := Option.map_eq_some_iff.1 h
    refine ⟨fun hi => ?_, rfl, rfl⟩)
  · exact { hi with coilsWf := Memory.wf_writeSeq _ _ _ hi.coilsWf }
  · exact { hi with discretesWf := Memory.wf_writeSeq _ _ _ hi.discretesWf }
  · exact { hi with inputsWf := Memory.wf_writeSeq _ _ _ hi.inputsWf }
  · exact { hi with holdingsWf := Memory.wf_writeSeq _ _ _ hi.holdingsWf }

theorem Slave.setValues_inv {sl sl' : Slave} {name : String} {address : Int} {vals : List Int}
    (h : sl.setValues name address vals = some sl') :
    (sl.Inv → sl'.Inv) ∧ sl'.addr = sl.addr ∧ sl'.blocks = sl.blocks := by
  unfold Slave.setValues at h
  split at h
  · cases h
  · split at h
    · exact Slave.storeValues_inv h
    · cases h

end Sys2Proof.Machine
end

