-- ==== Sys2Proof/Laws/PerInstr.lean ====
section
/-! SUPPORT. Families of statements about every instruction as it is written, one lemma per constructor. -/

namespace Sys2Proof.Laws

/-- The PDU of a well-formed instruction has 1 to 253 bytes, so that its frame has 4 to 256 (R90, R91, R110). -/
def PduFits.Statement (i : Instr) : Prop :=
  i.wellFormed = true → 1 ≤ (encode i).length ∧ (encode i).length ≤ 253

theorem PduFits.rdCoils (addr count : Word) : PduFits.Statement (.rdCoils addr count) :=
  fun _ => by simp [encode]

theorem PduFits.rdDiscrete (addr count : Word) : PduFits.Statement (.rdDiscrete addr count) :=
  fun _ => by simp [encode]

theorem PduFits.rdHolding (addr count : Word) : PduFits.Statement (.rdHolding addr count) :=
  fun _ => by simp [encode]

theorem PduFits.rdInput (addr count : Word) : PduFits.Statement (.rdInput addr count) :=
  fun _ => by simp [encode]

theorem PduFits.wrSingle (addr value : Word) : PduFits.Statement (.wrSingle addr value) :=
  fun _ => by simp [encode]

theorem PduFits.wrMulti (addr : Word) (vals : List Word) : PduFits.Statement (.wrMulti addr vals) := by
  intro h
  rw [Instr.wellFormed, countWithin_iff, Config.maxWriteRegs] at h
  simp only [encode, encodeWrMulti_length]
  omega

theorem PduFits.unsupported (fc : Byte) (payload : List Byte) : PduFits.Statement (.unsupported fc payload) := by
  intro h
  rw [Instr.wellFormed, Bool.and_eq_true, decide_eq_true_eq, Config.maxFrame, Config.minFrame] at h
  simp only [encode, List.length_cons]
  omega

theorem PduFits.rspRdCoils (data : List Byte) : PduFits.Statement (.rspRdCoils data) := by
  intro h
  rw [Instr.wellFormed, countWithin_iff] at h
  simp only [encode, encodeCounted_length]
  omega

theorem PduFits.rspRdDiscrete (data : List Byte) : PduFits.Statement (.rspRdDiscrete data) := by
  intro h
  rw [Instr.wellFormed, countWithin_iff] at h
  simp only [encode, encodeCounted_length]
  omega

theorem PduFits.rspRdHolding (vals : List Word) : PduFits.Statement (.rspRdHolding vals) := by
  intro h
  rw [Instr.wellFormed, countWithin_iff, Config.maxReadRegs] at h
  simp only [encode, encodeCounted_length, regsBytes_length]
  omega

theorem PduFits.rspRdInput (vals : List Word) : PduFits.Statement (.rspRdInput vals) := by
  intro h
  rw [Instr.wellFormed, countWithin_iff, Config.maxReadRegs] at h
  simp only [encode, encodeCounted_length, regsBytes_length]
  omega

theorem PduFits.rspWrSingle (addr value : Word) : PduFits.Statement (.rspWrSingle addr value) :=
  fun _ => by simp [encode]

theorem PduFits.rspWrMulti (addr count : Word) : PduFits.Statement (.rspWrMulti addr count) :=
  fun _ => by simp [encode]

theorem PduFits.rspException (fc : BitVec 7) (code : Byte) : PduFits.Statement (.rspException fc code) :=
  fun _ => by simp [encode]

end Sys2Proof.Laws
end

