-- ==== Sys2Proof/Laws/Run.lean ====
section
/-! SUPPORT. Runs of several steps, taken apart. -/

namespace Sys2Proof.Machine

@[simp] theorem runSteps_zero (s : State) : runSteps 0 s = .next s := rfl

/-- A run goes on from where its first part ended. -/
theorem runSteps_add (m n : Nat) {s t : State} (h : runSteps m s = .next t) :
    runSteps (m + n) s = runSteps n t := by
  induction m generalizing s with
  | zero => injection h with h; rw [h, Nat.zero_add]
  | succ m ih =>
    rw [Nat.succ_add, runSteps]
    rw [runSteps] at h
    revert h
    cases step s with
    | next u => exact ih
    | fault f => intro h; cases h
    | refused r => intro h; cases h

/-- One step handles the first event of the inbox. -/
theorem runSteps_one {s t : State} {e : Event} {rest : List Event} (hi : s.inbox = e :: rest)
    (h : handleEvent e { s with inbox := rest } = .next t) : runSteps 1 s = .next t := by
  have hs : step s = .next t := by rw [step, nextEvent, hi]; exact h
  rw [runSteps, hs]; rfl

/-- The bytes of a frame that leaves room in the buffer are appended, one step each (R131). -/
theorem runSteps_receive (g : List Byte) (rest : List Event) (s : State)
    (hi : s.inbox = g.map Event.rxByte ++ rest) (hd : s.server.dispState = .awaitingRequest)
    (hr : s.server.resync = false) (hb : s.server.rxBuf.length = Config.maxFrame)
    (hl : s.server.rxLen + g.length < Config.maxFrame) :
    ∃ buf gap, runSteps g.length s = .next { s with
        inbox := rest
        server := { s.server with rxBuf := buf, rxLen := s.server.rxLen + g.length, gapTimer := gap } } ∧
      buf.length = Config.maxFrame ∧ buf.take (s.server.rxLen + g.length) = s.server.frame ++ g := by
  induction g generalizing s with
  | nil =>
    simp only [List.map_nil, List.nil_append] at hi
    subst hi
    exact ⟨s.server.rxBuf, s.server.gapTimer, rfl, hb, by simp [Server.frame]⟩
  | cons b g ih =>
    rw [List.length_cons] at hl
    have h1 : runSteps 1 s =
        .next { s with inbox := g.map Event.rxByte ++ rest, server := s.server.appendByte b } := by
      apply runSteps_one (e := .rxByte b) (by simpa using hi)
      have hne : ¬ s.server.rxLen + 1 = Config.maxFrame := by omega
      have hlt : s.server.rxLen < Config.maxFrame := by omega
      simp [handleEvent, receiveByte, hd, hr, Server.acceptByte, hne, hlt]
    obtain ⟨buf, gap, h2, h3, h4⟩ :=
      ih { s with inbox := g.map Event.rxByte ++ rest, server := s.server.appendByte b } rfl (by simpa using hd)
        (by simpa using hr) (by simpa using hb) (by rw [Server.appendByte_rxLen]; omega)
    refine ⟨buf, gap, ?_, h3, ?_⟩
    · rw [List.length_cons, Nat.add_comm, runSteps_add 1 _ h1, h2]
      simp only [Server.appendByte, Nat.add_assoc]
    · simp only [Server.appendByte_rxLen] at h4
      rw [List.length_cons, Nat.add_comm g.length, ← Nat.add_assoc, h4, Server.frame_appendByte _ _ (by omega)]
      simp

/-- The bytes of a response leave in order, one step each (R207). -/
theorem runSteps_transmit (rest : List Event) (n : Nat) (s : State)
    (hi : s.inbox = List.replicate n Event.txReady ++ rest) (hd : s.server.dispState = .responding)
    (hl : s.server.txPos + n = s.server.txLen) (hb : s.server.txLen ≤ s.server.txBuf.length) :
    runSteps n s = .next { s with
      inbox := rest
      wire := s.wire ++ (s.server.txBuf.take s.server.txLen).drop s.server.txPos
      server := { s.server with txPos := s.server.txLen } } := by
  induction n generalizing s with
  | zero =>
    rw [Nat.add_zero] at hl
    simp only [List.replicate_zero, List.nil_append] at hi
    subst hi
    rw [← hl]
    simp
  | succ n ih =>
    have hlt : s.server.txPos < s.server.txBuf.length := by omega
    have h1 : runSteps 1 s = .next { s with
        inbox := List.replicate n Event.txReady ++ rest
        server := { s.server with txPos := s.server.txPos + 1 }
        wire := s.wire ++ [s.server.txBuf[s.server.txPos]] } := by
      apply runSteps_one (e := .txReady) (by simpa [List.replicate_succ] using hi)
      simp only [handleEvent, transmitByte]
      rw [if_pos ⟨hd, by omega⟩, List.getElem?_eq_getElem hlt]
    rw [Nat.add_comm, runSteps_add 1 _ h1,
      ih ⟨{ s.server with txPos := s.server.txPos + 1 }, _, _, _⟩ rfl hd (by simp only; omega) hb]
    simp only [List.append_assoc, List.singleton_append]
    congr 3
    rw [List.drop_eq_getElem_cons (i := s.server.txPos) (by simp; omega)]
    simp

end Sys2Proof.Machine
end

