-- ==== Sys2Proof/Tests/Slice0.lean ====
section
/-! SUPPORT. Tests: ill-formed terms, words written out from the encodings, single steps with results from
spec/95_test_vectors.md, and for each statement with hypotheses a state that meets them. -/

namespace Sys2Proof.Tests

open Sys2Proof Sys2Proof.Machine

/-! ## Well-formedness: a term each check refuses, and the limit it accepts (R111) -/

theorem test_wellFormed_coils :
    (Instr.rdCoils 0 0).wellFormed = false ∧ (Instr.rdCoils 0 2001).wellFormed = false ∧
      (Instr.rdCoils 0 2000).wellFormed = true := by decide

theorem test_wellFormed_discrete :
    (Instr.rdDiscrete 0 0).wellFormed = false ∧ (Instr.rdDiscrete 0 2001).wellFormed = false ∧
      (Instr.rdDiscrete 0 1).wellFormed = true := by decide

theorem test_wellFormed_holding :
    (Instr.rdHolding 0 0).wellFormed = false ∧ (Instr.rdHolding 0 126).wellFormed = false ∧
      (Instr.rdHolding 0 125).wellFormed = true := by decide

theorem test_wellFormed_input :
    (Instr.rdInput 0 0).wellFormed = false ∧ (Instr.rdInput 0 126).wellFormed = false ∧
      (Instr.rdInput 0 125).wellFormed = true := by decide

theorem test_wellFormed_write_multiple :
    (Instr.wrMulti 0 []).wellFormed = false ∧ (Instr.wrMulti 0 (List.replicate 124 0)).wellFormed = false ∧
      (Instr.wrMulti 0 (List.replicate 123 0)).wellFormed = true := by decide +kernel

theorem test_wellFormed_unsupported :
    (Instr.unsupported 0x03 []).wellFormed = false ∧
      (Instr.unsupported 0x05 (List.replicate 253 0)).wellFormed = false ∧
      (Instr.unsupported 0x05 (List.replicate 252 0)).wellFormed = true := by decide +kernel

theorem test_wellFormed_bit_responses :
    (Instr.rspRdCoils []).wellFormed = false ∧ (Instr.rspRdCoils (List.replicate 251 0)).wellFormed = false ∧
      (Instr.rspRdDiscrete []).wellFormed = false ∧
      (Instr.rspRdDiscrete (List.replicate 251 0)).wellFormed = false := by decide +kernel

theorem test_wellFormed_register_responses :
    (Instr.rspRdHolding []).wellFormed = false ∧ (Instr.rspRdHolding (List.replicate 126 0)).wellFormed = false ∧
      (Instr.rspRdInput []).wellFormed = false ∧
      (Instr.rspRdInput (List.replicate 126 0)).wellFormed = false := by decide +kernel

theorem test_wellFormed_other_responses :
    (Instr.rspWrMulti 0 0).wellFormed = false ∧ (Instr.rspWrMulti 0 124).wellFormed = false ∧
      (Instr.rspException 5 0).wellFormed = false ∧ (Instr.rspException 5 5).wellFormed = false ∧
      (Instr.rspException 5 4).wellFormed = true := by decide

/-! ## Decoding: words written out from R94 to R101 and spec/95 -/

/-- RD4. -/
theorem test_decode_rdCoils : decode [0x01, 0x00, 0x00, 0x00, 0x0A] = .ok (.rdCoils 0 10) := by decide

/-- RD7. -/
theorem test_decode_rdDiscrete : decode [0x02, 0x20, 0x00, 0x00, 0x0A] = .ok (.rdDiscrete 0x2000 10) := by decide

/-- RD1. -/
theorem test_decode_rdHolding : decode [0x03, 0x90, 0x00, 0x00, 0x02] = .ok (.rdHolding 0x9000 2) := by decide

/-- RD2. -/
theorem test_decode_rdInput : decode [0x04, 0x31, 0x00, 0x00, 0x02] = .ok (.rdInput 0x3100 2) := by decide

/-- W1. -/
theorem test_decode_wrSingle : decode [0x06, 0x90, 0x01, 0x01, 0xF4] = .ok (.wrSingle 0x9001 500) := by decide

/-- W3. -/
theorem test_decode_wrMulti :
    decode [0x10, 0x90, 0x02, 0x00, 0x02, 0x04, 0x00, 0x0A, 0x01, 0x02] = .ok (.wrMulti 0x9002 [10, 258]) := by
  decide

/-- X1 and X4. -/
theorem test_decode_unsupported :
    decode [0x05, 0x00, 0x00, 0xFF, 0x00] = .ok (.unsupported 0x05 [0x00, 0x00, 0xFF, 0x00]) ∧
      decode [0x83, 0x02] = .ok (.unsupported 0x83 [0x02]) := by decide

/-- X15, X20, X21, X23: a wrong length or byte count is refused by name, as is an empty PDU. -/
theorem test_decode_refuses :
    decode [0x03, 0x90, 0x00, 0x00, 0x02, 0x00] = .error .payloadLength ∧
      decode [0x10, 0x90, 0x00, 0x00, 0x02, 0x03, 0x00, 0x01, 0x00, 0x02] = .error .payloadLength ∧
      decode [0x10, 0x90, 0x00, 0x00, 0x02, 0x04, 0x00, 0x01, 0x00] = .error .payloadLength ∧
      decode [0x10, 0x90, 0x00, 0x00, 0x01] = .error .payloadLength ∧
      decode [] = .error .emptyPdu := by decide

/-- The responses of RD4, RD7, RD1, RD2, W1, W3 and X1. -/
theorem test_decodeResponse_reads :
    decodeResponse [0x01, 0x02, 0xCD, 0x03] = .ok (.rspRdCoils [0xCD, 0x03]) ∧
      decodeResponse [0x02, 0x02, 0x12, 0x03] = .ok (.rspRdDiscrete [0x12, 0x03]) ∧
      decodeResponse [0x03, 0x04, 0x00, 0x03, 0x01, 0xBD] = .ok (.rspRdHolding [3, 445]) ∧
      decodeResponse [0x04, 0x04, 0x1E, 0xB0, 0x00, 0x3A] = .ok (.rspRdInput [7856, 58]) := by decide

theorem test_decodeResponse_others :
    decodeResponse [0x06, 0x90, 0x01, 0x01, 0xF4] = .ok (.rspWrSingle 0x9001 500) ∧
      decodeResponse [0x10, 0x90, 0x02, 0x00, 0x02] = .ok (.rspWrMulti 0x9002 2) ∧
      decodeResponse [0x85, 0x01] = .ok (.rspException 0x05 0x01) ∧
      decodeResponse [0x08] = .error .noSuchResponse := by decide

/-- Table words: the first byte is the low one; data words beyond the given bits are 0. -/
theorem test_decodeTableWord :
    decodeTableWord 40 0x0A00000001 = some (.rdCoils 0 10) ∧
      decodeTableWord 40 0xF401019006 = some (.wrSingle 0x9001 500) ∧
      decodeTableWord 48 0x040200029010 = some (.wrMulti 0x9002 [0, 0]) ∧
      decodeTableWord 8 0x05 = some (.unsupported 0x05 []) := by decide +kernel

/-! ## The CRC (spec/95 section 2.1) -/

/-- The residue of R143; S1 and S2: a wrong bit, and the CRC bytes exchanged. -/
theorem test_crc16 :
    crc16 [0x01, 0x03] = 0x2140 ∧ crc16 [0x11, 0x03, 0x00, 0x6B, 0x00, 0x03] = 0x8776 ∧
      crc16 [0x01, 0x03, 0x90, 0x00, 0x00, 0x02, 0xE9, 0x0B] = 0x0000 ∧
      crcOk [0x01, 0x03, 0x90, 0x00, 0x00, 0x02, 0xE9, 0x0A] = false ∧
      crcOk [0x01, 0x03, 0x90, 0x00, 0x00, 0x02, 0x0B, 0xE9] = false ∧
      crcOk [0x01, 0x03, 0x90, 0x00, 0x00, 0x02, 0xE9, 0x0B] = true := by decide +kernel

/-- S3 to S7, and an accepted frame, for Slaves 17 and 1. -/
theorem test_validate :
    validate [17, 1] [0x02, 0x03, 0x90, 0x00, 0x00, 0x02, 0xE9, 0x38] = .drop .address ∧
      validate [17, 1] [0x00, 0x06, 0x90, 0x00, 0x00, 0x01, 0x64, 0xDB] = .drop .address ∧
      validate [17, 1] [0x01, 0x03, 0x90] = .drop .short ∧
      validate [17, 1] [0x01, 0x03, 0x90, 0x00, 0x00, 0x02, 0xE9, 0x0A] = .drop .crc ∧
      validate [17, 1] [0x01, 0x08, 0x01, 0xE6] = .accept 1 := by decide +kernel

/-! ## Requests, one Process step each, on CFG-A (spec/95 sections 2.2 to 2.4) -/

/-- The Slave of CFG-A. -/
def slaveA : Slave where
  addr := 1
  blocks := [⟨"real_time_data", .inputRegister, 0x3100, 32⟩, ⟨"holding_registers", .holdingRegister, 0x9000, 16⟩,
    ⟨"coils", .coil, 0x0000, 16⟩, ⟨"discrete", .discreteInput, 0x2000, 10⟩]
  coils := [0, 2, 3, 6, 7, 8, 9, 11, 13, 14].map fun a => (a, true)
  discretes := [0x2001, 0x2004, 0x2008, 0x2009].map fun a => (a, true)
  inputs := [(0x3100, 7856), (0x3101, 58), (0x3104, 2425)]
  holdings := [(0x9000, 3), (0x9001, 445)]

/-- A Server with these Slaves, in service. -/
def inService (slaves : List Slave) : Server :=
  { Server.created with slaves := slaves, dispState := .awaitingRequest }

/-- The state in which the request `pdu`, addressed to CFG-A's Slave, has been accepted. -/
def accepted (pdu : List Byte) : State :=
  { State.reset with server := (inService [slaveA]).placeRequest pdu }

/-- What the next step puts into the transmit buffer. -/
def answer (s : State) : Option (List Byte) :=
  match step s with
  | .next t => some (t.server.txBuf.take t.server.txLen)
  | .fault _ => none
  | .refused _ => none

/-- What the next step leaves in the current Slave's HoldingRegister space. -/
def stored (s : State) : Option (Memory Word) :=
  match step s with
  | .next t => t.server.currentSlave.map Slave.holdings
  | .fault _ => none
  | .refused _ => none

/-- RD4, RD6, X12 and X13. -/
theorem test_rdCoils :
    answer (accepted [0x01, 0x00, 0x00, 0x00, 0x0A]) = some [0x01, 0x01, 0x02, 0xCD, 0x03, 0xAD, 0x6D] ∧
      answer (accepted [0x01, 0x00, 0x03, 0x00, 0x08]) = some [0x01, 0x01, 0x01, 0x79, 0x90, 0x6A] ∧
      answer (accepted [0x01, 0x00, 0x00, 0x07, 0xD1]) = some [0x01, 0x81, 0x03, 0x00, 0x51] ∧
      answer (accepted [0x01, 0x00, 0x00, 0x07, 0xD0]) = some [0x01, 0x81, 0x02, 0xC1, 0x91] := by
  decide +kernel

/-- RD7 and RD8. -/
theorem test_rdDiscrete :
    answer (accepted [0x02, 0x20, 0x00, 0x00, 0x0A]) = some [0x01, 0x02, 0x02, 0x12, 0x03, 0xF5, 0x19] ∧
      answer (accepted [0x02, 0x20, 0x01, 0x00, 0x01]) = some [0x01, 0x02, 0x01, 0x01, 0x60, 0x48] := by
  decide +kernel

/-- RD1, RD9, X10, X11, X16, X31, X32 and X35. -/
theorem test_rdHolding :
    answer (accepted [0x03, 0x90, 0x00, 0x00, 0x02]) =
        some [0x01, 0x03, 0x04, 0x00, 0x03, 0x01, 0xBD, 0xCB, 0xD2] ∧
      answer (accepted [0x03, 0x90, 0x0F, 0x00, 0x01]) = some [0x01, 0x03, 0x02, 0x00, 0x00, 0xB8, 0x44] ∧
      answer (accepted [0x03, 0x90, 0x00, 0x00, 0x00]) = some [0x01, 0x83, 0x03, 0x01, 0x31] ∧
      answer (accepted [0x03, 0x90, 0x00, 0x00, 0x7E]) = some [0x01, 0x83, 0x03, 0x01, 0x31] ∧
      answer (accepted [0x03]) = some [0x01, 0x83, 0x03, 0x01, 0x31] ∧
      answer (accepted [0x03, 0x90, 0x0F, 0x00, 0x02]) = some [0x01, 0x83, 0x02, 0xC0, 0xF1] ∧
      answer (accepted [0x03, 0x31, 0x00, 0x00, 0x01]) = some [0x01, 0x83, 0x02, 0xC0, 0xF1] ∧
      answer (accepted [0x03, 0xFF, 0xFF, 0x00, 0x02]) = some [0x01, 0x83, 0x02, 0xC0, 0xF1] := by
  decide +kernel

/-- RD2 and RD3. -/
theorem test_rdInput :
    answer (accepted [0x04, 0x31, 0x00, 0x00, 0x02]) =
        some [0x01, 0x04, 0x04, 0x1E, 0xB0, 0x00, 0x3A, 0x7C, 0x58] ∧
      answer (accepted [0x04, 0x31, 0x04, 0x00, 0x01]) = some [0x01, 0x04, 0x02, 0x09, 0x79, 0x7E, 0x82] := by
  decide +kernel

/-- W1, X17 and X33. -/
theorem test_wrSingle :
    answer (accepted [0x06, 0x90, 0x01, 0x01, 0xF4]) = some [0x01, 0x06, 0x90, 0x01, 0x01, 0xF4, 0xF5, 0x1D] ∧
      stored (accepted [0x06, 0x90, 0x01, 0x01, 0xF4]) = some [(0x9000, 3), (0x9001, 500)] ∧
      answer (accepted [0x06, 0x90, 0x00, 0x00, 0x01, 0x00]) = some [0x01, 0x86, 0x03, 0x02, 0x61] ∧
      answer (accepted [0x06, 0x31, 0x00, 0x00, 0x01]) = some [0x01, 0x86, 0x02, 0xC3, 0xA1] := by decide +kernel

/-- W3, X22 and X34: nothing of a failed write is stored, not even in the covered first register. -/
theorem test_wrMulti :
    answer (accepted [0x10, 0x90, 0x02, 0x00, 0x02, 0x04, 0x00, 0x0A, 0x01, 0x02]) =
        some [0x01, 0x10, 0x90, 0x02, 0x00, 0x02, 0xCD, 0x08] ∧
      stored (accepted [0x10, 0x90, 0x02, 0x00, 0x02, 0x04, 0x00, 0x0A, 0x01, 0x02]) =
        some [(0x9000, 3), (0x9001, 445), (0x9002, 10), (0x9003, 258)] ∧
      answer (accepted [0x10, 0x90, 0x00, 0x00, 0x00, 0x00]) = some [0x01, 0x90, 0x03, 0x0C, 0x01] ∧
      answer (accepted [0x10, 0x90, 0x0F, 0x00, 0x02, 0x04, 0xAA, 0xAA, 0xBB, 0xBB]) =
        some [0x01, 0x90, 0x02, 0xCD, 0xC1] ∧
      stored (accepted [0x10, 0x90, 0x0F, 0x00, 0x02, 0x04, 0xAA, 0xAA, 0xBB, 0xBB]) =
        some [(0x9000, 3), (0x9001, 445)] := by decide +kernel

/-- X1, X3, X4 and X5. -/
theorem test_unsupported :
    answer (accepted [0x05, 0x00, 0x00, 0xFF, 0x00]) = some [0x01, 0x85, 0x01, 0x83, 0x50] ∧
      answer (accepted [0x00, 0x00, 0x00]) = some [0x01, 0x80, 0x01, 0x80, 0x00] ∧
      answer (accepted [0x83, 0x02]) = some [0x01, 0x83, 0x01, 0x80, 0xF0] ∧
      answer (accepted [0x08]) = some [0x01, 0x88, 0x01, 0x87, 0xC0] := by decide +kernel

/-! ## Responses, by themselves -/

/-- What an instruction puts into the transmit buffer of CFG-A's Slave. -/
def sent (i : Instr) : Option (List Byte) :=
  match exec i (accepted [0x08]) with
  | .next t => some (t.server.txBuf.take t.server.txLen)
  | .fault _ => none
  | .refused _ => none

/-- The responses of RD4, RD7, RD1 and RD2. -/
theorem test_read_responses :
    sent (.rspRdCoils [0xCD, 0x03]) = some [0x01, 0x01, 0x02, 0xCD, 0x03, 0xAD, 0x6D] ∧
      sent (.rspRdDiscrete [0x12, 0x03]) = some [0x01, 0x02, 0x02, 0x12, 0x03, 0xF5, 0x19] ∧
      sent (.rspRdHolding [3, 445]) = some [0x01, 0x03, 0x04, 0x00, 0x03, 0x01, 0xBD, 0xCB, 0xD2] ∧
      sent (.rspRdInput [7856, 58]) = some [0x01, 0x04, 0x04, 0x1E, 0xB0, 0x00, 0x3A, 0x7C, 0x58] := by
  decide +kernel

/-- The responses of W1, W3 and X1; and a term that is no response. -/
theorem test_other_responses :
    sent (.rspWrSingle 0x9001 500) = some [0x01, 0x06, 0x90, 0x01, 0x01, 0xF4, 0xF5, 0x1D] ∧
      sent (.rspWrMulti 0x9002 2) = some [0x01, 0x10, 0x90, 0x02, 0x00, 0x02, 0xCD, 0x08] ∧
      sent (.rspException 0x05 0x01) = some [0x01, 0x85, 0x01, 0x83, 0x50] ∧
      sent (.rspException 0x05 0x05) = none := by decide +kernel

/-! ## The first step after reset -/

/-- A placed table word is executed by the next step: RD_COILS on a Slave without blocks answers 02. -/
theorem test_withFetchWord :
    answer (State.reset.withFetchWord 40 0x0A00000001) = (some (frameOf 0x01 [0x81, 0x02])) ∧
      answer (State.reset.withFetchWord 8 0x05) = some [0x01, 0x85, 0x01, 0x83, 0x50] := by decide +kernel

/-! ## The Framer, the transmitter and the host's operations, one step each -/

/-- What an event leaves of a Server, if it leaves one. -/
def after (e : Event) (v : Server) : Option Server :=
  match handleEvent e { State.reset with server := v } with
  | .next t => some t.server
  | .fault _ => none
  | .refused _ => none

/-- R131, R133; R135: the frame of X5 is accepted at the silence, S6 is dropped. -/
theorem test_framer :
    (after (.rxByte 0x01) (inService [slaveA])).map Server.frame = some [0x01] ∧
      (after (.rxByte 0x01) (accepted [0x08]).server).map (fun v => (v.frame, v.resync)) =
        some ([0x01, 0x08, 0x01, 0xE6], true) ∧
      (after .silence { (accepted [0x08]).server with dispState := .awaitingRequest }).map Server.dispState =
        some .processing ∧
      (after .silence { (accepted [0x08]).server with dispState := .awaitingRequest, rxLen := 1 }).map
        (fun v => (v.dispState, v.rxLen)) = some (.awaitingRequest, 0) := by decide +kernel

/-- R207 and R208. -/
theorem test_transmit :
    (after .txReady ((inService [slaveA]).load 1 [0x85, 0x01])).map Server.txPos = some 1 ∧
      after .txDrained ((inService [slaveA]).load 1 [0x85, 0x01]) = some ((inService [slaveA]).load 1 [0x85, 0x01]) ∧
      (after .txDrained { (inService [slaveA]).load 1 [0x85, 0x01] with txPos := 5 }).map Server.dispState =
        some .awaitingRequest := by decide +kernel

/-- Slave 1 of section 2.8 after H5. -/
def slaveH : Slave := { Slave.created 1 with blocks := [⟨"h", .holdingRegister, 0, 4⟩] }

/-- The Server of section 2.8 after H5, not yet in service. -/
def serverH : Server := { Server.created with slaves := [slaveH, Slave.created 17] }

/-- H2, H4: addresses that are illegal or used. -/
theorem test_addSlave_errors :
    (serverH.hostOp (.addSlave 0)).2 = .failed .configError ∧
      (serverH.hostOp (.addSlave 248)).2 = .failed .configError ∧
      (serverH.hostOp (.addSlave 17)).2 = .failed .configError ∧ (serverH.hostOp (.addSlave 247)).2 = .ok := by
  decide

/-- H6 to H9. -/
theorem test_addBlock :
    (serverH.hostOp (.addBlock 1 "h2" .holdingRegister 3 2)).2 = .failed .configError ∧
      (serverH.hostOp (.addBlock 1 "h" .inputRegister 100 2)).2 = .failed .configError ∧
      (serverH.hostOp (.addBlock 1 "i" .inputRegister 0 4)).2 = .ok ∧
      (serverH.hostOp (.addBlock 1 "z" .coil 0 0)).2 = .failed .configError ∧
      (serverH.hostOp (.addBlock 1 "y" .coil 0xFFFF 2)).2 = .failed .configError := by decide

/-- H10 to H12, and the values of P4. -/
theorem test_setValues :
    (serverH.hostOp (.setValues 1 "h" 3 (.sequence [1, 2]))).2 = .failed .configError ∧
      (serverH.hostOp (.setValues 1 "h" 0 (.scalar 65536))).2 = .failed .configError ∧
      (serverH.hostOp (.setValues 1 "h" 0 (.scalar (-5)))).2 = .failed .configError ∧
      (serverH.hostOp (.setValues 1 "nope" 0 (.scalar 1))).2 = .failed .configError ∧
      (serverH.hostOp (.setValues 1 "h" 0 (.sequence [0x1111, 0x2222]))).1.slaves.map Slave.holdings =
        [[(0, 0x1111), (1, 0x2222)], []] := by decide

/-- H14, H15, H16, H17, H1, H20, H21. -/
theorem test_lifecycle :
    (serverH.hostOp (.start false)).2 = .failed .resourceError ∧ (serverH.hostOp (.start true)).2 = .ok ∧
      ((inService [slaveH]).hostOp (.start true)).2 = .failed .preconditionViolation ∧
      ((inService [slaveH]).hostOp (.addSlave 5)).2 = .failed .preconditionViolation ∧
      (serverH.hostOp .stop).2 = .failed .preconditionViolation ∧ ((inService [slaveH]).hostOp .stop).2 = .ok ∧
      (((inService [slaveH]).hostOp .stop).1.hostOp .stop).2 = .failed .preconditionViolation := by decide

/-- H18, H19. -/
theorem test_peek :
    ((inService [slaveH]).hostOp (.peek 1 .holdingRegister 0 4)).2 = .values (.words [0, 0, 0, 0]) ∧
      ((inService [slaveH]).hostOp (.peek 1 .holdingRegister 2 4)).2 = .failed .addressOutOfRange := by
  decide

/-! ## Witnesses: for each statement with hypotheses, states and operands that meet them, at the limits -/

/-- A Slave whose blocks cover every address of every category. -/
def wide : Slave :=
  { Slave.created 17 with
    blocks := [⟨"c", .coil, 0, 65536⟩, ⟨"d", .discreteInput, 0, 65536⟩, ⟨"i", .inputRegister, 0, 65536⟩,
      ⟨"h", .holdingRegister, 0, 65536⟩] }

theorem wide_covers (cat : Category) (a n : Nat) (h : a + n ≤ 65536) : wide.CoversAll cat a n := by
  intro i hi
  have h1 : a + i ≤ 65535 := by omega
  have h2 : a + i < 65536 := by omega
  cases cat <;> simp [Slave.covered, wide, Slave.created, Block.covers, h1, h2]

theorem slaveA_inv : slaveA.Inv :=
  ⟨by decide, by decide, by decide, by decide, by decide, by decide, by decide, by decide⟩

theorem wide_inv : wide.Inv := ⟨by decide, by decide, by decide, by decide, by decide, by decide, by decide, by decide⟩

/-- W1's request, accepted. -/
def stateA : State := accepted [0x06, 0x90, 0x01, 0x01, 0xF4]

/-- A request accepted for a Slave that covers everything. -/
def stateW : State := { State.reset with server := { inService [wide, slaveA] with dispState := .processing } }

theorem stateA_current : stateA.server.currentSlave = some slaveA := rfl

theorem stateW_current : stateW.server.currentSlave = some wide := rfl

theorem stateA_inv : stateA.Inv where
  rxBufSize := by decide +kernel
  txBufSize := List.length_replicate
  rxEmpty := fun h => by rcases h with h | h | h <;> cases h
  txEmpty := fun _ => ⟨rfl, rfl⟩
  txBounded := ⟨Nat.le_refl _, Nat.zero_le _⟩
  resyncEmpty := fun h => by cases h
  rxRoom := fun h => by cases h
  accepted := fun _ => by decide +kernel
  gapBounded := Nat.zero_le _
  addrsDistinct := List.pairwise_singleton _ _
  slavesOk := by
    intro sl h
    obtain rfl := List.mem_singleton.1 h
    exact slaveA_inv

theorem stateA_decodes : decode (pduOf stateA.server.frame) = .ok (.wrSingle 0x9001 500) := by decide +kernel

/-- CFG-A in service, with these events to come. -/
def waiting (inbox : List Event) : State := { State.reset with server := inService [slaveA], inbox := inbox }

theorem waiting_inv (inbox : List Event) : (waiting inbox).Inv where
  rxBufSize := List.length_replicate
  txBufSize := List.length_replicate
  rxEmpty := fun _ => rfl
  txEmpty := fun _ => ⟨rfl, rfl⟩
  txBounded := ⟨Nat.le_refl _, Nat.zero_le _⟩
  resyncEmpty := fun _ _ => rfl
  rxRoom := fun _ => Nat.zero_lt_succ 255
  accepted := fun h => by cases h
  gapBounded := Nat.zero_le _
  addrsDistinct := List.pairwise_singleton _ _
  slavesOk := stateA_inv.slavesOk

/-- A read, a write and a response are executed. -/
theorem stateW_executes :
    (∃ t, exec (.rdCoils 0xF830 2000) stateW = .next t) ∧ (∃ t, exec (.wrSingle 0xFFFF 1) stateW = .next t) ∧
      (∃ t, exec (.wrMulti 0xFF85 (List.replicate 123 7)) stateW = .next t) ∧
      ∃ t, exec (.rspException 5 4) stateW = .next t :=
  ⟨exec_request_has_next rfl stateW_current, exec_request_has_next rfl stateW_current,
    exec_request_has_next rfl stateW_current, _, (sendResponse_eq (rsp := .rspException 5 4) _ rfl).trans (respond_eq _ stateW_current)⟩

theorem test_witness_ResetIsCreatedIdle : Event.isHost .silence = false ∧ Event.isHost (.rxByte 1) = false := by
  decide

theorem test_witness_StepKeepsInvariant : stateA.Inv ∧ ∃ t, step stateA = .next t := by
  obtain ⟨t, ht⟩ := exec_request_has_next (i := .wrSingle 0x9001 500) rfl stateA_current
  refine ⟨stateA_inv, t, ?_⟩
  show process stateA = .next t
  rw [process, if_pos (show stateA.server.dispState = .processing from rfl), stateA_decodes]
  exact ht

theorem test_witness_MachineNeverStopsUnderInvariant : stateA.Inv ∧ (waiting [.rxByte 1]).Inv :=
  ⟨stateA_inv, waiting_inv _⟩

theorem test_witness_OnlyHostConfiguresAndStops :
    Event.isHost .process = false ∧ (∃ t, handleEvent .process stateA = .next t) ∧
      ∃ t, handleEvent .silence stateA = .next t :=
  ⟨rfl, test_witness_StepKeepsInvariant.2, _, rfl⟩

theorem test_witness_StoreChangesOnlyInProcess :
    Event.isHost .process = false ∧ ∃ t, handleEvent .process stateA = .next t ∧ t.server.slaves ≠ stateA.server.slaves := by
  obtain ⟨t, ht⟩ := test_witness_StepKeepsInvariant.2
  have hne : (match process stateA with
      | .next u => decide (u.server.slaves ≠ stateA.server.slaves) | .fault _ => false | .refused _ => false) = true := by
    decide +kernel
  have hp : process stateA = .next t := ht
  rw [hp] at hne
  exact ⟨rfl, t, ht, of_decide_eq_true hne⟩

theorem test_witness_StepRunsDecodedRequest :
    stateA.server.dispState = .processing ∧
      decode (pduOf stateA.server.frame) = .ok (.wrSingle 0x9001 500) ∧ stateA.inbox = [] ∧
      { stateA with inbox := [.process, .silence] }.inbox = .process :: [.silence] ∧
      (waiting []).inbox = [] ∧ (waiting []).server.dispState ≠ .processing :=
  ⟨rfl, stateA_decodes, rfl, rfl, rfl, by decide⟩

theorem test_witness_DecoderAcceptsExactlyLegalPdus :
    supportedFc 0x01 = true ∧ pduLegal [0x01, 0x00, 0x00, 0x07, 0xD0] = true ∧
      pduLegal [0x01, 0x00, 0x00, 0x07, 0xD1] = false ∧
      supportedFc 0x10 = true ∧ pduLegal (0x10 :: 0 :: 0 :: 0 :: 123 :: 246 :: List.replicate 246 0) = true ∧
      pduLegal (0x10 :: 0 :: 0 :: 0 :: 124 :: 248 :: List.replicate 248 0) = false := by decide +kernel

theorem test_witness_RequestsDecodeFromTheirEncoding :
    ∀ i ∈ [Instr.rdCoils 0xFFFF 2000, .rdDiscrete 0 1, .rdHolding 0x9000 125, .rdInput 0x3100 125, .wrSingle 0 0xFFFF,
      .wrMulti 0xFFFF (List.replicate 123 0xFFFF), .unsupported 0xFF (List.replicate 252 0)],
      i.isRequest = true ∧ i.wellFormed = true := by
  decide +kernel

theorem test_witness_ResponsesDecodeFromTheirEncoding :
    ∀ i ∈ [Instr.rspRdCoils (List.replicate 250 0xFF), .rspRdDiscrete [1], .rspRdHolding (List.replicate 125 7),
      .rspRdInput [0xFFFF], .rspWrSingle 0xFFFF 0, .rspWrMulti 0 123, .rspException 127 4],
      i.isRequest = false ∧ i.wellFormed = true := by
  decide +kernel

theorem test_witness_DecodedRequestsEncodeBack :
    decode [0x10, 0x90, 0x02, 0x00, 0x01, 0x02, 0xFF, 0x01] = .ok (.wrMulti 0x9002 [0xFF01]) ∧
      decode [0xFF] = .ok (.unsupported 0xFF []) := by decide

theorem test_witness_PackedBitsStandLowestFirst :
    1 < ((List.replicate 9 true).length + 7) / 8 ∧ 7 < 8 := by decide

theorem test_witness_RegisterBytesStandHighFirst : 0 < [0x1EB0#16].length := by decide

theorem test_witness_ExceptionPduSetsTheHighBit : (0x83#8).getLsbD 7 = true ∧ 6 < 7 := by decide

theorem test_witness_CrcResidueIsZero : 4 ≤ [0x01#8, 0x08, 0x01, 0xE6].length := by decide

theorem test_witness_TransmittedFramesPassTheCheck :
    stateW.server.currentSlave = some wide ∧ ∃ t, exec (.rdCoils 0xF830 2000) stateW = .next t :=
  ⟨stateW_current, stateW_executes.1⟩

theorem test_witness_CoverageIsExactlyOneBlock :
    slaveA.Inv ∧ slaveA.covered .coil 15 = true ∧ slaveA.covered .coil 16 = false ∧
      slaveA.covered .holdingRegister 0x8FFF = false ∧ slaveA.covered .holdingRegister 0x9000 = true :=
  ⟨slaveA_inv, by decide, by decide, by decide, by decide⟩

theorem test_witness_RangePastTheTopIsRejected :
    stateW.server.currentSlave = some wide ∧
      ∀ p ∈ [(0xFFFF#16, 2#16), (0xF831, 2000), (0xFF84, 125), (0xFF86, 123)],
        1 ≤ p.2.toNat ∧ 0x10000 < p.1.toNat + p.2.toNat ∧ p.2.toNat ≤ 2000 ∧
          (List.replicate p.2.toNat 0#16).length = p.2.toNat := by
  refine ⟨stateW_current, fun p hp => ?_⟩
  simp only [List.mem_cons, List.not_mem_nil, or_false] at hp
  rcases hp with rfl | rfl | rfl | rfl <;> exact ⟨by decide, by decide, by decide, List.length_replicate⟩

theorem test_witness_ReadCoilsAnswersTheBits :
    stateW.server.currentSlave = some wide ∧ 1 ≤ (2000#16).toNat ∧ (2000#16).toNat ≤ 2000 ∧
      wide.CoversAll .coil (0xF830#16).toNat (2000#16).toNat :=
  ⟨stateW_current, by decide, by decide, wide_covers _ _ _ (by decide)⟩

theorem test_witness_ReadDiscreteInputsAnswersTheBits :
    stateW.server.currentSlave = some wide ∧ 1 ≤ (2000#16).toNat ∧ (2000#16).toNat ≤ 2000 ∧
      wide.CoversAll .discreteInput (0xF830#16).toNat (2000#16).toNat :=
  ⟨stateW_current, by decide, by decide, wide_covers _ _ _ (by decide)⟩

theorem test_witness_ReadHoldingRegistersAnswersTheValues :
    stateW.server.currentSlave = some wide ∧ 1 ≤ (125#16).toNat ∧ (125#16).toNat ≤ 125 ∧
      wide.CoversAll .holdingRegister (0xFF83#16).toNat (125#16).toNat :=
  ⟨stateW_current, by decide, by decide, wide_covers _ _ _ (by decide)⟩

theorem test_witness_ReadInputRegistersAnswersTheValues :
    stateW.server.currentSlave = some wide ∧ 1 ≤ (1#16).toNat ∧ (1#16).toNat ≤ 125 ∧
      wide.CoversAll .inputRegister (0xFFFF#16).toNat (1#16).toNat :=
  ⟨stateW_current, by decide, by decide, wide_covers _ _ _ (by decide)⟩

theorem test_witness_BadReadsAnswerTheirException :
    stateA.server.currentSlave = some slaveA ∧
      ¬ (1 ≤ (0#16).toNat ∧ (0#16).toNat ≤ 2000) ∧ ¬ (1 ≤ (2001#16).toNat ∧ (2001#16).toNat ≤ 2000) ∧
      ¬ (1 ≤ (0#16).toNat ∧ (0#16).toNat ≤ 125) ∧ ¬ (1 ≤ (126#16).toNat ∧ (126#16).toNat ≤ 125) ∧
      (1 ≤ (2000#16).toNat ∧ (2000#16).toNat ≤ 2000) ∧ (1 ≤ (125#16).toNat ∧ (125#16).toNat ≤ 125) ∧
      ¬ slaveA.CoversAll .coil 0 2000 ∧ ¬ slaveA.CoversAll .discreteInput 0x2009 2 ∧
      ¬ slaveA.CoversAll .holdingRegister 0x8FFF 2 ∧ ¬ slaveA.CoversAll .inputRegister 0x3120 1 := by
  refine ⟨stateA_current, by decide, by decide, by decide, by decide, by decide, by decide, ?_, ?_, ?_, ?_⟩ <;>
    exact (Slave.coversRange_eq_false _ _ _ _).1 (by decide +kernel)

theorem test_witness_WriteSingleStoresAndEchoes :
    stateA.server.currentSlave = some slaveA ∧ Memory.wf Config.initReg slaveA.holdings ∧
      slaveA.covered .holdingRegister (0x900F#16).toNat = true :=
  ⟨stateA_current, slaveA_inv.holdingsWf, by decide⟩

theorem test_witness_WriteMultipleStoresAll :
    stateW.server.currentSlave = some wide ∧ Memory.wf Config.initReg wide.holdings ∧
      1 ≤ (List.replicate 123 7#16).length ∧ (List.replicate 123 7#16).length ≤ 123 ∧
      wide.CoversAll .holdingRegister (0xFF85#16).toNat (List.replicate 123 7#16).length :=
  ⟨stateW_current, wide_inv.holdingsWf, by simp, by simp, wide_covers _ _ _ (by simp)⟩

theorem test_witness_FailedWritesStoreNothing :
    stateA.server.currentSlave = some slaveA ∧ slaveA.covered .holdingRegister (0x9010#16).toNat = false ∧
      slaveA.covered .holdingRegister (0x3100#16).toNat = false ∧
      ¬ (1 ≤ ([] : List Word).length ∧ ([] : List Word).length ≤ 123) ∧
      ¬ (1 ≤ (List.replicate 124 7#16).length ∧ (List.replicate 124 7#16).length ≤ 123) ∧
      (1 ≤ [0xAAAA#16, 0xBBBB].length ∧ [0xAAAA#16, 0xBBBB].length ≤ 123) ∧
      ¬ slaveA.CoversAll .holdingRegister (0x900F#16).toNat [0xAAAA#16, 0xBBBB].length :=
  ⟨stateA_current, by decide, by decide, by decide, by simp, by decide,
    (Slave.coversRange_eq_false _ _ _ _).1 (by decide +kernel)⟩

theorem test_witness_WriteThenReadReturnsTheValues :
    stateW.server.currentSlave = some wide ∧ Memory.wf Config.initReg wide.holdings ∧
      1 ≤ [7#16].length ∧ [7#16].length ≤ 123 ∧ wide.CoversAll .holdingRegister (0xFFFF#16).toNat [7#16].length :=
  ⟨stateW_current, wide_inv.holdingsWf, by decide, by decide, wide_covers _ _ _ (by decide)⟩

theorem test_witness_UnsupportedAnswersIllegalFunction :
    (∀ fc ∈ [0x00#8, 0x05, 0x07, 0x0F, 0x11, 0x83, 0xFF],
      fc ∉ [0x01#8, 0x02#8, 0x03#8, 0x04#8, 0x06#8, 0x10#8]) ∧ stateA.server.currentSlave = some slaveA :=
  ⟨by decide, stateA_current⟩

theorem test_witness_ExceptionAnswersFiveBytes : stateA.server.currentSlave = some slaveA := stateA_current

theorem test_witness_InternalErrorStoresNothing :
    stateA.server.currentSlave = some slaveA ∧
      (fun sl : Slave => some ([0x06#8], { sl with holdings := [] })) slaveA =
        some ([0x06#8], { slaveA with holdings := [] }) := ⟨stateA_current, rfl⟩

theorem test_witness_ResponsesAreSent :
    stateW.server.currentSlave = some wide ∧
      ∀ i ∈ [Instr.rspRdCoils [1], .rspRdDiscrete (List.replicate 250 1), .rspRdHolding [7],
        .rspRdInput (List.replicate 125 7), .rspWrSingle 0 0, .rspWrMulti 0xFFFF 1, .rspException 0 1],
        i.isRequest = false ∧ i.wellFormed = true := by
  exact ⟨stateW_current, by decide +kernel⟩

theorem test_witness_IllFormedResponsesAreRefused :
    ∀ i ∈ [Instr.rspRdCoils [], .rspRdDiscrete [], .rspRdHolding [], .rspRdInput [], .rspWrMulti 0 0,
      .rspException 0 5], i.isRequest = false ∧ i.wellFormed = false := by decide

theorem test_witness_NonWritesChangeNoStore :
    (∀ a v, Instr.rdCoils 0xF830 2000 ≠ .wrSingle a v) ∧ (∀ a vs, Instr.rdCoils 0xF830 2000 ≠ .wrMulti a vs) ∧
      ∃ t, exec (.rdCoils 0xF830 2000) stateW = .next t := ⟨by simp, by simp, stateW_executes.1⟩

theorem test_witness_WritesChangeOnlyTheirRange :
    stateW.server.currentSlave = some wide ∧ Memory.wf Config.initReg wide.holdings ∧
      (∃ t, exec (.wrSingle 0xFFFF 1) stateW = .next t) ∧
      ∃ t, exec (.wrMulti 0xFF85 (List.replicate 123 7)) stateW = .next t :=
  ⟨stateW_current, wide_inv.holdingsWf, stateW_executes.2.1, stateW_executes.2.2.1⟩

theorem test_witness_OtherSlavesAreIsolated :
    SameForCurrent stateW { stateW with server := { stateW.server with slaves := [wide, slaveH] } } ∧
      ∃ t, exec (.wrSingle 0xFFFF 1) stateW = .next t :=
  ⟨⟨rfl, rfl, rfl, rfl, rfl⟩, stateW_executes.2.1⟩

theorem test_witness_ProcessComputesExecute :
    stateA.server.dispState = .processing ∧ stateA.server.currentSlave = some slaveA ∧
      pduOf stateA.server.frame ≠ [] :=
  ⟨rfl, stateA_current, fun h => by have := stateA_decodes; rw [h] at this; cases this⟩

theorem test_witness_ServeAnswersValidFrames :
    (waiting (serveEvents [0x01, 0x08, 0x01, 0xE6] 5)).Inv ∧ (inService [slaveA]).dispState = .awaitingRequest ∧
      (inService [slaveA]).rxLen = 0 ∧ (inService [slaveA]).resync = false ∧
      4 ≤ [0x01#8, 0x08, 0x01, 0xE6].length ∧ [0x01#8, 0x08, 0x01, 0xE6].length < Config.maxFrame ∧
      crcOk [0x01, 0x08, 0x01, 0xE6] = true ∧ (inService [slaveA]).slaves[0]? = some slaveA ∧
      [0x01#8, 0x08, 0x01, 0xE6][0]? = some slaveA.addr ∧
      (execute slaveA (pduOf [0x01, 0x08, 0x01, 0xE6])).1.length + 3 = 5 := by
  refine ⟨waiting_inv _, rfl, rfl, rfl, ?_, ?_, ?_, rfl, ?_, ?_⟩ <;> decide +kernel

theorem test_witness_ServeDropsInvalidFrames :
    (waiting []).Inv ∧ [0x01#8].length < 4 ∧
      crcOk [0x01, 0x03, 0x90, 0x00, 0x00, 0x02, 0xE9, 0x0A] = false ∧
      (∀ sl ∈ (inService [slaveA]).slaves, (0x02#8 :: List.replicate 254 0)[0]? ≠ some sl.addr) ∧
      (0x02#8 :: List.replicate 254 0).length < Config.maxFrame := by
  refine ⟨waiting_inv _, ?_, ?_, ?_, ?_⟩ <;> decide +kernel

theorem test_witness_AcceptedByteIsAppended :
    (waiting []).server.dispState = .awaitingRequest ∧ (waiting []).server.resync = false ∧
      { (waiting []).server with rxLen := 254 }.rxLen + 1 < 256 ∧
      { (waiting []).server with rxLen := 255 }.rxLen + 1 = 256 := ⟨rfl, rfl, by decide, rfl⟩

theorem test_witness_ByteIsDiscardedUntilSilence :
    { (waiting []).server with resync := true }.dispState = .awaitingRequest ∧
      { (waiting []).server with resync := true }.resync = true := by decide

theorem test_witness_ByteIsLostWhileBusy :
    stateA.server.dispState = .processing ∧ (stateA.server.load 1 [0x85, 0x01]).dispState = .responding := by decide

theorem test_witness_SilenceCompletesTheFrame :
    (waiting []).server.dispState = .awaitingRequest ∧ (waiting []).server.rxLen = 0 ∧
      0 < { (waiting []).server with rxLen := 1 }.rxLen ∧ stateA.server.dispState = .processing ∧
      (stateA.server.load 1 [0x85, 0x01]).dispState = .responding := by decide

/-- The four clauses: S6, a 4-byte frame whose CRC is wrong, a frame of no owned Slave, and X5's frame. -/
theorem test_witness_FrameCompletionChecksInOrder :
    { (accepted [0x08]).server with rxLen := 3 }.frame.length < 4 ∧
      (4 ≤ { (accepted [0x08, 0x00]).server with rxLen := 4 }.frame.length ∧
        crcOk { (accepted [0x08, 0x00]).server with rxLen := 4 }.frame = false) ∧
      (4 ≤ { (accepted [0x08]).server with slaves := [wide] }.frame.length ∧
        crcOk { (accepted [0x08]).server with slaves := [wide] }.frame = true ∧
        ∀ sl ∈ [wide], { (accepted [0x08]).server with slaves := [wide] }.frame[0]? ≠ some sl.addr) ∧
      (4 ≤ (accepted [0x08]).server.frame.length ∧ crcOk (accepted [0x08]).server.frame = true ∧
        (accepted [0x08]).server.slaves[0]? = some slaveA ∧
        (accepted [0x08]).server.frame[0]? = some slaveA.addr ∧
        (accepted [0x08]).server.slaves.Pairwise (fun a b => a.addr ≠ b.addr)) := by decide +kernel

theorem test_witness_ReservedAddressesAreDropped :
    (∀ sl ∈ (inService [slaveA]).slaves, sl.Inv) ∧
      { inService [slaveA] with rxBuf := [0], rxLen := 1 }.frame[0]? = some 0 ∧
      { inService [slaveA] with rxBuf := [248], rxLen := 1 }.frame[0]? = some 248 ∧ 248 ≤ (248#8).toNat :=
  ⟨stateA_inv.slavesOk, rfl, rfl, by decide⟩

theorem test_witness_OtherEventsHaveNoEffect :
    State.reset.server.dispState = .idle ∧ (State.reset.server.stop).1.dispState = .idle ∧
      ((inService []).stop).1.dispState = .stopped ∧ (waiting []).server.dispState = .awaitingRequest ∧
      stateA.server.dispState = .processing ∧ (stateA.server.load 1 [5]).dispState = .responding ∧
      (stateA.server.load 1 [5]).txPos < (stateA.server.load 1 [5]).txLen ∧
      { stateA.server.load 1 [5] with txPos := 4 }.txPos = (stateA.server.load 1 [5]).txLen :=
  ⟨rfl, rfl, rfl, rfl, rfl, rfl, Nat.zero_lt_succ _, rfl⟩

theorem test_witness_TxReadyEmitsTheNextByte :
    (stateA.server.load 1 [5]).dispState = .responding ∧
      (stateA.server.load 1 [5]).txPos < (stateA.server.load 1 [5]).txLen ∧
      (stateA.server.load 1 [5]).txBuf[(stateA.server.load 1 [5]).txPos]? = some 1 ∧
      stateA.server.dispState ≠ .responding ∧
      { stateA.server.load 1 [5] with txPos := 4 }.txPos = (stateA.server.load 1 [5]).txLen :=
  ⟨rfl, Nat.zero_lt_succ _, rfl, by decide, rfl⟩

theorem test_witness_TxDrainedReturnsToAwaiting :
    (stateA.server.load 1 [5]).dispState = .responding ∧
      { stateA.server.load 1 [5] with txPos := 4 }.txPos = (stateA.server.load 1 [5]).txLen ∧
      { stateA.server.load 1 [5] with txPos := 3 }.txPos < (stateA.server.load 1 [5]).txLen ∧
      (waiting []).server.dispState ≠ .responding := ⟨rfl, rfl, Nat.lt_succ_self 3, by decide⟩

theorem test_witness_SilenceIsRaisedOncePerGap :
    (waiting []).server.ownsChannel = true ∧ (waiting []).server.gapTimer = 0 ∧
      Config.tSilentTicks < { (waiting []).server with gapTimer := Config.tSilentTicks + 1 }.gapTimer :=
  ⟨rfl, rfl, Nat.lt_succ_self _⟩

theorem test_witness_StartEntersService :
    serverH.dispState = .idle ∧ (waiting []).server.dispState ≠ .idle := by decide

theorem test_witness_StopAbandonsTheRequest :
    (waiting []).server.dispState = .awaitingRequest ∧ stateA.server.dispState = .processing ∧
      (stateA.server.load 1 [5]).dispState = .responding ∧ serverH.dispState = .idle ∧
      ((inService []).stop).1.dispState = .stopped := by decide

theorem test_witness_AddSlaveAppends :
    serverH.dispState = .idle ∧ (∀ sl ∈ serverH.slaves, (sl.addr.toNat : Int) ≠ 247) ∧
      (∀ sl ∈ serverH.slaves, (sl.addr.toNat : Int) ≠ 2) ∧ (∃ sl ∈ serverH.slaves, (sl.addr.toNat : Int) = 17) := by
  decide

theorem test_witness_AddBlockAppends :
    serverH.dispState = .idle ∧ serverH.slaves.Pairwise (fun a b => a.addr ≠ b.addr) ∧
      serverH.slaves[0]? = some slaveH ∧ (∀ b ∈ slaveH.blocks, b.name ≠ "top") ∧
      (∀ b ∈ slaveH.blocks, b.cat = .holdingRegister →
        (b.start : Int) + b.length ≤ 4 ∨ (4 + 65532 : Int) ≤ b.start) ∧ (4 + 65532 : Int) ≤ 65536 ∧
      (∃ b ∈ slaveH.blocks, b.name = "h") ∧
      (∃ b ∈ slaveH.blocks, b.cat = .holdingRegister ∧ (b.start : Int) < 3 + 2 ∧ (3 : Int) < b.start + b.length) := by
  decide

theorem test_witness_SetValuesStoresAll :
    serverH.dispState = .idle ∧ serverH.slaves.Pairwise (fun a b => a.addr ≠ b.addr) ∧
      serverH.slaves[0]? = some slaveH ∧ slaveH.Inv ∧
      (∃ b ∈ slaveH.blocks, b.name = "h" ∧ (b.start : Int) ≤ 2 ∧ (2 : Int) + [0, 65535].length ≤ b.start + b.length ∧
        ∀ x ∈ [(0 : Int), 65535], (cellOf b.cat x).isSome) ∧
      (∀ b ∈ slaveH.blocks, b.name ≠ "nope") ∧
      (∃ b ∈ slaveH.blocks, b.name = "h" ∧ (b.start : Int) + b.length < 3 + [1, 2].length) ∧
      (∃ b ∈ slaveH.blocks, b.name = "h" ∧ ∃ x ∈ [(65536 : Int)], cellOf b.cat x = none) :=
  ⟨rfl, by decide, rfl, ⟨by decide, by decide, by decide, by decide, by decide, by decide, by decide, by decide⟩,
    by decide, by decide, by decide, by decide⟩

theorem test_witness_ConfigurationOnlyInIdle :
    (waiting []).server.dispState ≠ .idle ∧ ((inService []).stop).1.dispState ≠ .idle := by decide

theorem test_witness_IntrospectionOnlyReads :
    (inService [slaveA, wide]).slaves.Pairwise (fun a b => a.addr ≠ b.addr) ∧
      (inService [slaveA, wide]).slaves[1]? = some wide ∧ wide.CoversAll .coil 0 65536 ∧
      ¬ slaveA.CoversAll .coil 0 17 ∧ slaveA.Inv ∧ (∀ b ∈ slaveA.blocks, b.name ≠ "nope") :=
  ⟨by decide, rfl, wide_covers _ _ _ (by decide), (Slave.coversRange_eq_false _ _ _ _).1 (by decide +kernel),
    slaveA_inv, by decide⟩

theorem test_witness_FailedHostOpsChangeNothing :
    ∃ t, handleEvent (.host .stop) State.reset = .next t ∧
      t.replies = State.reset.replies ++ [.failed .preconditionViolation] := ⟨_, rfl, rfl⟩

end Sys2Proof.Tests
end

section
/-! SUPPORT. What each event of the bus, the timer and the worker can do to the Server, said once per event. -/

namespace Sys2Proof.Machine

/-- Everything an accepted byte can do: it ends the frame at `MAX_FRAME` bytes, or it is appended (R131, R136). -/
theorem Server.acceptByte_cases (v : Server) (b : Byte) :
    (v.rxLen + 1 = Config.maxFrame ∧ v.acceptByte b = { v.appendByte b with resync := true }.completeFrame) ∨
      (v.rxLen + 1 ≠ Config.maxFrame ∧ v.acceptByte b = v.appendByte b) := by
  unfold Server.acceptByte
  split
  · next hl => exact .inl ⟨hl, rfl⟩
  · next hl => exact .inr ⟨hl, rfl⟩

/-- Everything `RxByte` can do: nothing off the channel, accept the byte, discard it while a silence is awaited, or
lose it while a request is in flight (R131 to R134). -/
theorem receiveByte_next {b : Byte} {s t : State} (h : receiveByte b s = .next t) :
    (s.server.ownsChannel = false ∧ t = s) ∨
      (s.server.dispState = .awaitingRequest ∧ s.server.resync = true ∧
        t = { s with server := { s.server with gapTimer := 0 } }) ∨
      (s.server.dispState = .awaitingRequest ∧ s.server.resync = false ∧ s.server.rxLen < Config.maxFrame ∧
        t = { s with server := s.server.acceptByte b }) ∨
      ((s.server.dispState = .processing ∨ s.server.dispState = .responding) ∧
        t = { s with server := { s.server with resync := true, gapTimer := 0 } }) := by
  unfold receiveByte at h
  split at h
  · next hd =>
    split at h
    · next hr => injection h with h; exact .inr (.inl ⟨hd, hr, h.symm⟩)
    · next hr =>
      split at h
      · next hl => injection h with h; exact .inr (.inr (.inl ⟨hd, by simpa using hr, hl, h.symm⟩))
      · cases h
  · next hd => injection h with h; exact .inr (.inr (.inr ⟨.inl hd, h.symm⟩))
  · next hd => injection h with h; exact .inr (.inr (.inr ⟨.inr hd, h.symm⟩))
  · next hd => injection h with h; exact .inl ⟨by simp [Server.ownsChannel, hd], h.symm⟩
  · next hd => injection h with h; exact .inl ⟨by simp [Server.ownsChannel, hd], h.symm⟩

/-- Everything `Silence` can do: nothing off the channel, end the wait of `resync`, or also complete a frame that
has begun (R135, R137). -/
theorem Server.silence_cases (v : Server) :
    (v.ownsChannel = false ∧ v.silence = v) ∨
      (v.ownsChannel = true ∧ (v.dispState = .awaitingRequest → v.rxLen = 0) ∧
        v.silence = { v with resync := false }) ∨
      (v.dispState = .awaitingRequest ∧ v.rxLen ≠ 0 ∧ v.silence = { v with resync := false }.completeFrame) := by
  unfold Server.silence
  split
  · next hd =>
    split
    · next hl => exact .inr (.inl ⟨by simp [Server.ownsChannel, hd], fun _ => hl, rfl⟩)
    · next hl => exact .inr (.inr ⟨hd, hl, rfl⟩)
  · next hd => exact .inr (.inl ⟨by simp [Server.ownsChannel, hd], by simp [hd], rfl⟩)
  · next hd => exact .inr (.inl ⟨by simp [Server.ownsChannel, hd], by simp [hd], rfl⟩)
  · next hd => exact .inl ⟨by simp [Server.ownsChannel, hd], rfl⟩
  · next hd => exact .inl ⟨by simp [Server.ownsChannel, hd], rfl⟩

/-- Everything `Tick` can do: nothing, count, or count past `T_SILENT_TICKS` and raise `Silence` (R281, R282). -/
theorem Server.tick_cases (v : Server) :
    ((v.ownsChannel = false ∨ Config.tSilentTicks < v.gapTimer) ∧ v.tick = v) ∨
      (v.ownsChannel = true ∧ v.gapTimer < Config.tSilentTicks ∧
        v.tick = { v with gapTimer := v.gapTimer + 1 }) ∨
      (v.ownsChannel = true ∧ v.gapTimer = Config.tSilentTicks ∧
        v.tick = { v with gapTimer := v.gapTimer + 1 }.silence) := by
  unfold Server.tick
  split
  · next hc =>
    rw [Bool.and_eq_true, decide_eq_true_eq] at hc
    obtain ⟨hown, hle⟩ := hc
    split
    · next heq => exact .inr (.inr ⟨hown, heq, rfl⟩)
    · next hne => exact .inr (.inl ⟨hown, lt_of_le_of_ne hle hne, rfl⟩)
  · next hc =>
    rw [Bool.and_eq_true, decide_eq_true_eq, not_and_or, Bool.not_eq_true, not_le] at hc
    exact .inl ⟨hc, rfl⟩

/-- Everything `TxReady` can do: nothing, or emit the next byte of the response (R207). -/
theorem transmitByte_next {s t : State} (h : transmitByte s = .next t) :
    (¬ (s.server.dispState = .responding ∧ s.server.txPos < s.server.txLen) ∧ t = s) ∨
      (s.server.dispState = .responding ∧ s.server.txPos < s.server.txLen ∧
        ∃ b, s.server.txBuf[s.server.txPos]? = some b ∧
          t = { s with server := { s.server with txPos := s.server.txPos + 1 }, wire := s.wire ++ [b] }) := by
  unfold transmitByte at h
  split at h
  · next hc =>
    split at h
    · cases h
    · next b hb => injection h with h; exact .inr ⟨hc.1, hc.2, b, hb, h.symm⟩
  · next hc => injection h with h; exact .inl ⟨hc, h.symm⟩

/-- Everything `TxDrained` can do: nothing, or return to reception (R208). -/
theorem Server.transmitDrained_cases (v : Server) :
    (¬ (v.dispState = .responding ∧ v.txPos = v.txLen) ∧ v.transmitDrained = v) ∨
      (v.dispState = .responding ∧ v.txPos = v.txLen ∧ v.transmitDrained = v.resume) := by
  unfold Server.transmitDrained
  split
  · next hc => exact .inr ⟨hc.1, hc.2, rfl⟩
  · next hc => exact .inl ⟨hc, rfl⟩

end Sys2Proof.Machine
end

section
/-! SUPPORT. How the invariant of R39 goes over each update of the Server that an event makes. -/

namespace Sys2Proof.Machine

/-- Replacing an entry by one of the same image leaves the images as they were. -/
theorem map_set_eq_of_getElem? {α β : Type} {f : α → β} {l : List α} {k : Nat} {x y : α} (hk : l[k]? = some x)
    (hf : f y = f x) : (l.set k y).map f = l.map f := by
  have hk' : (l.map f)[k]? = some (f x) := by rw [List.getElem?_map, hk, Option.map_some]
  obtain ⟨hlt, hx⟩ := List.getElem?_eq_some_iff.1 hk'
  rw [List.map_set, hf, ← hx, List.set_getElem_self]

/-- Right after its creation the Server meets the invariant (R39, R40). -/
theorem Server.created_inv : Server.created.Inv where
  rxBufSize := List.length_replicate
  txBufSize := List.length_replicate
  rxEmpty := fun _ => rfl
  txEmpty := fun _ => ⟨rfl, rfl⟩
  txBounded := by simp [Server.created]
  resyncEmpty := fun _ _ => rfl
  rxRoom := nofun
  accepted := nofun
  gapBounded := Nat.zero_le _
  addrsDistinct := List.Pairwise.nil
  slavesOk := nofun

/-- A new Slave of a legal address meets its invariant: no blocks, nothing stored (R231). -/
theorem Slave.created_inv {addr : Byte} (hlo : Config.addrMin ≤ addr.toNat) (hhi : addr.toNat ≤ Config.addrMax) :
    (Slave.created addr).Inv where
  addrLegal := ⟨hlo, hhi⟩
  namesUnique := List.Pairwise.nil
  blocksDisjoint := List.Pairwise.nil
  blocksBounded := nofun
  coilsWf := Memory.wf_nil _
  discretesWf := Memory.wf_nil _
  inputsWf := Memory.wf_nil _
  holdingsWf := Memory.wf_nil _

namespace Server.Inv

variable {v : Server}

/-- While bytes are accepted the Framer may hold any frame with room for a byte, an empty one while it waits for a
silence. -/
theorem receiving (h : v.Inv) (hd : v.dispState = .awaitingRequest) {buf : List Byte} {n g : Nat} {r : Bool}
    (hb : buf.length = Config.maxFrame) (hn : n < Config.maxFrame) (hr : r = true → n = 0)
    (hg : g ≤ Config.tSilentTicks + 1) :
    Server.Inv { v with rxBuf := buf, rxLen := n, resync := r, gapTimer := g } :=
  { h with
    rxBufSize := hb
    rxEmpty := by simp [hd]
    resyncEmpty := fun hr' _ => hr hr'
    rxRoom := fun _ => hn
    accepted := by simp [hd]
    gapBounded := hg }

theorem setGapTimer (h : v.Inv) {g : Nat} (hg : g ≤ Config.tSilentTicks + 1) :
    Server.Inv { v with gapTimer := g } :=
  { h with gapBounded := hg }

theorem clearResync (h : v.Inv) : Server.Inv { v with resync := false } :=
  { h with resyncEmpty := nofun }

/-- Outside reception `resync` is free (R134). -/
theorem setResync (h : v.Inv) (hd : v.dispState ≠ .awaitingRequest) (r : Bool) :
    Server.Inv { v with resync := r } :=
  { h with resyncEmpty := fun _ hd' => absurd hd' hd }

/-- A completed frame is dropped or enters `Processing` with what I-4 asks of it (R142). -/
theorem completeFrame (h : Server.Inv { v with rxLen := 0 }) (hd : v.dispState = .awaitingRequest)
    (hl : v.rxLen ≤ Config.maxFrame) : v.completeFrame.Inv := by
  obtain he | ⟨k, sl, hk, hmin, hcrc, haddr, he⟩ := v.completeFrame_cases <;> rw [he]
  · exact h
  · have hlen : v.frame.length = v.rxLen := v.frame_length (h.rxBufSize ▸ hl)
    have hpos : 0 < v.rxLen := hlen ▸ lt_of_lt_of_le (by decide) hmin
    have hhead : v.rxBuf[0]? = some sl.addr := by
      rwa [Server.frame, List.getElem?_take_of_lt hpos] at haddr
    exact { h with
      rxEmpty := by simp
      txEmpty := fun _ => h.txEmpty (by simp [hd])
      resyncEmpty := nofun
      rxRoom := nofun
      accepted := fun _ => ⟨hlen ▸ hmin, hl, hcrc, by simp [Server.currentSlave, hk, hhead]⟩ }

theorem acceptByte (h : v.Inv) (hd : v.dispState = .awaitingRequest) (hr : v.resync = false) (b : Byte) :
    (v.acceptByte b).Inv := by
  have hroom := h.rxRoom hd
  have hbuf : (v.rxBuf.set v.rxLen b).length = Config.maxFrame := by simpa using h.rxBufSize
  obtain ⟨hl, he⟩ | ⟨hl, he⟩ := v.acceptByte_cases b <;> rw [he]
  · exact completeFrame (h.receiving hd hbuf (by decide) (fun _ => rfl) (Nat.zero_le _)) hd hl.le
  · exact h.receiving hd hbuf (by omega) (by simp [hr]) (Nat.zero_le _)

theorem silence (h : v.Inv) : v.silence.Inv := by
  obtain ⟨-, he⟩ | ⟨-, -, he⟩ | ⟨hd, -, he⟩ := v.silence_cases <;> rw [he]
  · exact h
  · exact h.clearResync
  · exact completeFrame (h.receiving hd h.rxBufSize (by decide) nofun h.gapBounded) hd (h.rxRoom hd).le

theorem tick (h : v.Inv) : v.tick.Inv := by
  obtain ⟨-, he⟩ | ⟨-, hg, he⟩ | ⟨-, hg, he⟩ := v.tick_cases <;> rw [he]
  · exact h
  · exact h.setGapTimer (by omega)
  · exact (h.setGapTimer (by omega)).silence

/-- A byte of the response that has left (R207). -/
theorem advanceTx (h : v.Inv) (hd : v.dispState = .responding) (hp : v.txPos < v.txLen) :
    Server.Inv { v with txPos := v.txPos + 1 } :=
  { h with
    txEmpty := fun hd' => absurd hd hd'
    txBounded := ⟨hp, h.txBounded.2⟩ }

theorem resume (h : v.Inv) (hd : v.dispState = .responding) : v.resume.Inv :=
  have hrx : v.rxLen = 0 := h.rxEmpty (.inr (.inr hd))
  { h with
    rxEmpty := by simp
    txEmpty := fun _ => ⟨rfl, rfl⟩
    txBounded := by simp
    resyncEmpty := fun _ _ => hrx
    rxRoom := fun _ => by simp [hrx, Config.maxFrame]
    accepted := by simp }

/-- Loading a response of at most 252 bytes fills at most 255 bytes of the transmit buffer (R32, R204). -/
theorem load (h : v.Inv) (addr : Byte) {pdu : List Byte} (hp : pdu.length ≤ 252) : (v.load addr pdu).Inv :=
  { h with
    txBufSize := by
      have := h.txBufSize
      simp only [Config.maxFrame] at this ⊢
      simp [this]
      omega
    rxEmpty := fun _ => rfl
    txEmpty := by simp
    txBounded := by simp; omega
    resyncEmpty := fun _ _ => rfl
    rxRoom := by simp
    accepted := by simp }

/-- Other Slaves of the same addresses: distinctness and the address of the current Slave are as before. -/
theorem setSlaves (h : v.Inv) {slaves : List Slave} (ha : slaves.map Slave.addr = v.slaves.map Slave.addr)
    (hok : ∀ sl ∈ slaves, sl.Inv) : Server.Inv { v with slaves := slaves } :=
  { h with
    accepted := fun hd => by
      have hcur := h.accepted hd
      simp only [Server.currentSlave, ← List.getElem?_map] at hcur ⊢
      rwa [ha]
    addrsDistinct := by
      rw [← List.pairwise_map, ha, List.pairwise_map]
      exact h.addrsDistinct
    slavesOk := hok }

/-- One Slave replaced by one of the same address (R71, R232, R233). -/
theorem setSlave (h : v.Inv) {k : Nat} {sl sl' : Slave} (hk : v.slaves[k]? = some sl) (hi : sl'.Inv)
    (ha : sl'.addr = sl.addr) : Server.Inv { v with slaves := v.slaves.set k sl' } := by
  refine h.setSlaves ?_ fun x hx => ?_
  · exact map_set_eq_of_getElem? hk ha
  · rcases List.mem_or_eq_of_mem_set hx with hx | rfl
    · exact h.slavesOk x hx
    · exact hi

/-- A Slave of a new legal address, appended while the Server is configured (R231). -/
theorem addSlave (h : v.Inv) (address : Int) : (v.addSlave address).1.Inv := by
  obtain ⟨f, he⟩ | ⟨hd, hlo, hhi, hnew, he⟩ := v.addSlave_cases address <;> rw [he]
  · exact h
  · have hnat : (BitVec.ofNat 8 address.toNat).toNat = address.toNat := by
      rw [BitVec.toNat_ofNat]
      omega
    exact { h with
      accepted := by simp [hd]
      addrsDistinct := List.pairwise_append.2 ⟨h.addrsDistinct, List.pairwise_singleton _ _, fun sl hsl x hx => by
        obtain rfl := List.mem_singleton.1 hx
        exact fun heq => hnew sl hsl (by rw [heq]; exact hnat)⟩
      slavesOk := fun sl hsl => by
        rcases List.mem_append.1 hsl with hsl | hsl
        · exact h.slavesOk sl hsl
        · obtain rfl := List.mem_singleton.1 hsl
          exact Slave.created_inv (by rw [hnat, Config.addrMin]; omega) (by rw [hnat, Config.addrMax]; omega) }

theorem addBlock (h : v.Inv) (slave : Nat) (name : String) (cat : Category) (start length : Int) :
    (v.addBlock slave name cat start length).1.Inv := by
  obtain ⟨f, he⟩ | ⟨-, k, sl, sl', hk, hsl', he⟩ := v.addBlock_cases slave name cat start length <;> rw [he]
  · exact h
  · obtain ⟨hk, -⟩ := Server.slaveAt_eq_some hk
    obtain ⟨hi, ha⟩ := Slave.addBlock_inv (h.slavesOk sl (List.mem_of_getElem? hk)) hsl'
    exact h.setSlave hk hi ha

theorem setValues (h : v.Inv) (slave : Nat) (name : String) (address : Int) (vals : Values) :
    (v.setValues slave name address vals).1.Inv := by
  obtain ⟨f, he⟩ | ⟨-, k, sl, sl', hk, hsl', he⟩ := v.setValues_cases slave name address vals <;> rw [he]
  · exact h
  · obtain ⟨hk, -⟩ := Server.slaveAt_eq_some hk
    obtain ⟨hi, ha, -⟩ := Slave.setValues_inv hsl'
    exact h.setSlave hk (hi (h.slavesOk sl (List.mem_of_getElem? hk))) ha

theorem start (h : v.Inv) (chanAvailable : Bool) : (v.start chanAvailable).1.Inv := by
  obtain ⟨f, he⟩ | ⟨-, he⟩ := v.start_cases chanAvailable <;> rw [he]
  · exact h
  · exact { h with
      rxEmpty := fun _ => rfl
      txEmpty := fun _ => ⟨rfl, rfl⟩
      txBounded := by simp
      resyncEmpty := fun _ _ => rfl
      rxRoom := fun _ => by simp [Config.maxFrame]
      accepted := nofun
      gapBounded := Nat.zero_le _ }

theorem stop (h : v.Inv) : v.stop.1.Inv := by
  obtain ⟨f, he⟩ | ⟨-, he⟩ := v.stop_cases <;> rw [he]
  · exact h
  · exact { h with
      rxEmpty := fun _ => rfl
      txEmpty := fun _ => ⟨rfl, rfl⟩
      txBounded := by simp
      resyncEmpty := nofun
      rxRoom := nofun
      accepted := nofun }

theorem hostOp (h : v.Inv) (op : HostOp) : (v.hostOp op).1.Inv := by
  cases op with
  | addSlave address => exact h.addSlave address
  | addBlock slave name cat start length => exact h.addBlock slave name cat start length
  | setValues slave name address vals => exact h.setValues slave name address vals
  | getBlock slave name => exact h
  | start chanAvailable => exact h.start chanAvailable
  | stop => exact h.stop
  | peek slave cat address count => exact h

end Server.Inv
end Sys2Proof.Machine
end

section
/-! SUPPORT. Every event, and so every step, keeps the invariant of R39. -/

namespace Sys2Proof.Machine

theorem receiveByte_inv {b : Byte} {s t : State} (hs : s.Inv) (h : receiveByte b s = .next t) : t.Inv := by
  obtain ⟨-, rfl⟩ | ⟨-, -, rfl⟩ | ⟨hd, hr, -, rfl⟩ | ⟨hd, rfl⟩ := receiveByte_next h
  · exact hs
  · exact Server.Inv.setGapTimer hs (Nat.zero_le _)
  · exact Server.Inv.acceptByte hs hd hr b
  · have hbusy : s.server.dispState ≠ .awaitingRequest := by rcases hd with hd | hd <;> simp [hd]
    exact (Server.Inv.setResync hs hbusy true).setGapTimer (Nat.zero_le _)

theorem transmitByte_inv {s t : State} (hs : s.Inv) (h : transmitByte s = .next t) : t.Inv := by
  obtain ⟨-, rfl⟩ | ⟨hd, hp, b, -, rfl⟩ := transmitByte_next h
  · exact hs
  · exact Server.Inv.advanceTx hs hd hp

theorem transmitDrained_inv {v : Server} (h : v.Inv) : v.transmitDrained.Inv := by
  obtain ⟨-, he⟩ | ⟨hd, -, he⟩ := v.transmitDrained_cases <;> rw [he]
  · exact h
  · exact h.resume hd

/-- What an executed request leaves: a written Slave keeps its own invariant, and a response is loaded (R204). -/
theorem Executed.inv {s t : State} {sl sl' : Slave} {pdu : List Byte} (h : Executed s t sl sl' pdu) (hs : s.Inv)
    (hp : pdu.length ≤ 252) : t.Inv := by
  have hsl : sl.Inv := hs.slavesOk sl (List.mem_of_getElem? h.current)
  have hsl' : sl'.Inv := by
    rcases h.slave with rfl | ⟨a, vals, hw⟩
    · exact hsl
    · exact Slave.writeHoldings_inv hsl hw
  rw [h.eq]
  exact (Server.Inv.setSlave hs h.current hsl' h.addr).load sl.addr hp

theorem process_inv {s t : State} (hs : s.Inv) (h : process s = .next t) : t.Inv := by
  obtain rfl | ⟨-, sl, sl', pdu, hp, he⟩ := process_next h
  · exact hs
  · exact he.inv hs hp

theorem handleEvent_inv {e : Event} {s t : State} (hs : s.Inv) (h : handleEvent e s = .next t) : t.Inv := by
  cases e with
  | rxByte b => exact receiveByte_inv hs h
  | silence => injection h with h; exact h ▸ Server.Inv.silence hs
  | tick => injection h with h; exact h ▸ Server.Inv.tick hs
  | txReady => exact transmitByte_inv hs h
  | txDrained => injection h with h; exact h ▸ transmitDrained_inv hs
  | process => exact process_inv hs h
  | host op => injection h with h; exact h ▸ Server.Inv.hostOp hs op

theorem step_inv {s t : State} (hs : s.Inv) (h : step s = .next t) : t.Inv := by
  rw [step, nextEvent] at h
  split at h
  · exact process_inv hs h
  · next e rest hin => exact handleEvent_inv (s := { s with inbox := rest }) hs h

/-- Settles O3: every event keeps the invariant, and a step handles one event. -/
theorem stepKeepsInvariant : Obligations.StepKeepsInvariant :=
  fun _ _ hs h => step_inv hs h

/-- Settles O2: reset is the creation of the Server. -/
theorem resetMeetsInvariant : Obligations.ResetMeetsInvariant :=
  Server.created_inv

end Sys2Proof.Machine
end

section
/-! SUPPORT. What the events that are not the host's leave alone: the Store outside the Process step, the
configuration, and whether the Server is `Idle` or `Stopped`. -/

namespace Sys2Proof.Machine

/-- From `v` to `w` without the host and without a request executed: the Slaves are the same, and the state is the
same or one that owns the channel on both sides (R27, R38). -/
structure Server.BusWork (v w : Server) : Prop where
  slaves : w.slaves = v.slaves
  dispState : w.dispState = v.dispState ∨ (v.ownsChannel = true ∧ w.ownsChannel = true)

theorem Server.ownsChannel_iff (v : Server) :
    v.ownsChannel = true ↔
      v.dispState = .awaitingRequest ∨ v.dispState = .processing ∨ v.dispState = .responding := by
  unfold Server.ownsChannel
  split <;> simp_all

/-- A Server that owns the channel is neither `Idle` nor `Stopped` (R27). -/
theorem Server.ownsChannel_ne {v : Server} (h : v.ownsChannel = true) :
    v.dispState ≠ .idle ∧ v.dispState ≠ .stopped := by
  rcases v.ownsChannel_iff.1 h with hd | hd | hd <;> simp [hd]

theorem Server.BusWork.refl (v : Server) : v.BusWork v := ⟨rfl, .inl rfl⟩

/-- Completing a frame stays in reception or enters `Processing` (R142). -/
theorem Server.completeFrame_busWork {v w : Server} (hs : v.slaves = w.slaves) (hv : v.dispState = .awaitingRequest)
    (hw : w.dispState = .awaitingRequest) : w.BusWork v.completeFrame := by
  refine ⟨v.completeFrame_slaves.trans hs, ?_⟩
  obtain he | ⟨k, sl, -, -, -, -, he⟩ := v.completeFrame_cases <;> rw [he]
  · exact .inl (hv.trans hw.symm)
  · exact .inr ⟨by simp [Server.ownsChannel, hw], rfl⟩

theorem Server.acceptByte_busWork {v : Server} (b : Byte) (hd : v.dispState = .awaitingRequest) :
    v.BusWork (v.acceptByte b) := by
  obtain ⟨-, he⟩ | ⟨-, he⟩ := v.acceptByte_cases b <;> rw [he]
  · exact Server.completeFrame_busWork rfl hd hd
  · exact ⟨rfl, .inl rfl⟩

theorem receiveByte_busWork {b : Byte} {s t : State} (h : receiveByte b s = .next t) :
    s.server.BusWork t.server := by
  obtain ⟨-, rfl⟩ | ⟨-, -, rfl⟩ | ⟨hd, -, -, rfl⟩ | ⟨-, rfl⟩ := receiveByte_next h
  · exact .refl _
  · exact ⟨rfl, .inl rfl⟩
  · exact Server.acceptByte_busWork b hd
  · exact ⟨rfl, .inl rfl⟩

theorem Server.silence_busWork (v : Server) : v.BusWork v.silence := by
  obtain ⟨-, he⟩ | ⟨-, -, he⟩ | ⟨hd, -, he⟩ := v.silence_cases <;> rw [he]
  · exact .refl v
  · exact ⟨rfl, .inl rfl⟩
  · exact Server.completeFrame_busWork rfl hd hd

theorem Server.tick_busWork (v : Server) : v.BusWork v.tick := by
  obtain ⟨-, he⟩ | ⟨-, -, he⟩ | ⟨-, -, he⟩ := v.tick_cases <;> rw [he]
  · exact .refl v
  · exact ⟨rfl, .inl rfl⟩
  · obtain ⟨hs, hd⟩ := Server.silence_busWork { v with gapTimer := v.gapTimer + 1 }
    exact ⟨hs, hd⟩

theorem transmitByte_busWork {s t : State} (h : transmitByte s = .next t) : s.server.BusWork t.server := by
  obtain ⟨-, rfl⟩ | ⟨-, -, b, -, rfl⟩ := transmitByte_next h
  · exact .refl _
  · exact ⟨rfl, .inl rfl⟩

theorem Server.transmitDrained_busWork (v : Server) : v.BusWork v.transmitDrained := by
  obtain ⟨-, he⟩ | ⟨hd, -, he⟩ := v.transmitDrained_cases <;> rw [he]
  · exact .refl v
  · exact ⟨rfl, .inr ⟨by simp [Server.ownsChannel, hd], rfl⟩⟩

/-- Everything an event that is not the host's can do: work that leaves the Slaves alone, or, for `Process` in
`Processing`, the request executed (R38, R201). -/
theorem handleEvent_next_of_not_host {e : Event} {s t : State} (he : e.isHost = false)
    (h : handleEvent e s = .next t) :
    s.server.BusWork t.server ∨
      (e = .process ∧ s.server.dispState = .processing ∧ ∃ sl sl' pdu, Executed s t sl sl' pdu) := by
  cases e with
  | rxByte b => exact .inl (receiveByte_busWork h)
  | silence => injection h with h; exact .inl (h ▸ s.server.silence_busWork)
  | tick => injection h with h; exact .inl (h ▸ s.server.tick_busWork)
  | txReady => exact .inl (transmitByte_busWork h)
  | txDrained => injection h with h; exact .inl (h ▸ s.server.transmitDrained_busWork)
  | process =>
    obtain rfl | ⟨hd, sl, sl', pdu, -, hx⟩ := process_next h
    · exact .inl (.refl _)
    · exact .inr ⟨rfl, hd, sl, sl', pdu, hx⟩
  | host op => cases he

/-- An executed request changes of the Slaves at most a HoldingRegister space (R83, R180). -/
theorem Executed.hostOnly {s t : State} {sl sl' : Slave} {pdu : List Byte} (h : Executed s t sl sl' pdu) :
    t.server.hostOnly = s.server.hostOnly := by
  have hsame : (sl'.addr, sl'.blocks, sl'.coils, sl'.discretes, sl'.inputs) =
      (sl.addr, sl.blocks, sl.coils, sl.discretes, sl.inputs) := by
    rcases h.slave with rfl | ⟨a, vals, hw⟩
    · rfl
    · obtain ⟨ha, hb, hc, hd, hi⟩ := Slave.writeHoldings_frame hw
      rw [ha, hb, hc, hd, hi]
  rw [h.eq]
  exact map_set_eq_of_getElem? h.current hsame

theorem Executed.responding {s t : State} {sl sl' : Slave} {pdu : List Byte} (h : Executed s t sl sl' pdu) :
    t.server.dispState = .responding := by
  rw [h.eq]
  rfl

/-- Settles O6: every other event only does work that leaves the Slaves alone. -/
theorem storeChangesOnlyInProcess : Obligations.StoreChangesOnlyInProcess := by
  intro e s t he h hne
  obtain hw | ⟨hp, hd, -⟩ := handleEvent_next_of_not_host he h
  · exact absurd hw.slaves hne
  · exact ⟨hp, hd⟩

/-- Settles O5: work that leaves the Slaves alone keeps to the states that own the channel, and an executed request
goes from `Processing` to `Responding` and writes HoldingRegisters only. -/
theorem onlyHostConfiguresAndStops : Obligations.OnlyHostConfiguresAndStops := by
  intro e s t he h
  obtain ⟨hslaves, hsame | ⟨hs, ht⟩⟩ | ⟨-, hd, sl, sl', pdu, hx⟩ := handleEvent_next_of_not_host he h
  · exact ⟨by rw [Server.hostOnly, Server.hostOnly, hslaves], by rw [hsame], by rw [hsame]⟩
  · obtain ⟨hsi, hss⟩ := Server.ownsChannel_ne hs
    obtain ⟨hti, hts⟩ := Server.ownsChannel_ne ht
    exact ⟨by rw [Server.hostOnly, Server.hostOnly, hslaves], by simp [hss, hts], by simp [hsi, hti]⟩
  · exact ⟨hx.hostOnly, by simp [hx.responding, hd], by simp [hx.responding, hd]⟩

end Sys2Proof.Machine
end

section
/-! SUPPORT. Coverage: one block of the category, counted in the table or found at one row (R24). -/

namespace Sys2Proof.Machine

theorem Block.covers_iff (b : Block) (cat : Category) (a : Nat) :
    b.covers cat a = true ↔ b.cat = cat ∧ b.start ≤ a ∧ a < b.start + b.length := by
  simp [Block.covers]

theorem Slave.covered_iff (sl : Slave) (cat : Category) (a : Nat) :
    sl.covered cat a = true ↔ a ≤ 0xFFFF ∧ sl.blocks.countP (Block.covers · cat a) = 1 := by
  simp [Slave.covered]

/-- Exactly one entry satisfies a predicate when exactly one index holds an entry that does. -/
theorem countP_eq_one_iff_existsUnique {α : Type} (p : α → Bool) (l : List α) :
    l.countP p = 1 ↔ ∃! k : Nat, ∃ x, l[k]? = some x ∧ p x = true := by
  have hcard : l.countP p = (l.findIdxs p).toFinset.card := by
    rw [List.toFinset_card_of_nodup List.nodup_findIdxs, List.length_findIdxs]
  rw [hcard, Finset.card_eq_one_iff_existsUnique]
  refine existsUnique_congr fun k => ?_
  rw [List.mem_toFinset, List.mem_findIdxs_iff_exists_getElem_pos]
  simp only [List.getElem?_eq_some_iff]
  constructor
  · rintro ⟨hk, hp⟩
    exact ⟨_, ⟨hk, rfl⟩, hp⟩
  · rintro ⟨x, ⟨hk, rfl⟩, hp⟩
    exact ⟨hk, hp⟩

/-- Two blocks that cover one address of one category overlap (R232). -/
theorem Block.overlaps_of_covers {b c : Block} {cat : Category} {a : Nat} (hb : b.covers cat a = true)
    (hc : c.covers cat a = true) : b.overlaps c = true := by
  rw [Block.covers_iff] at hb hc
  obtain ⟨rfl, hb1, hb2⟩ := hb
  obtain ⟨hcat, hc1, hc2⟩ := hc
  simp only [Block.overlaps, Bool.and_eq_true, decide_eq_true_eq]
  exact ⟨hcat.symm, by omega, by omega⟩

/-- In a table of disjoint blocks one row at most covers an address. -/
theorem Slave.Inv.covering_index_unique {sl : Slave} (h : sl.Inv) {cat : Category} {a j k : Nat} {b c : Block}
    (hj : sl.blocks[j]? = some b) (hb : b.covers cat a = true) (hk : sl.blocks[k]? = some c)
    (hc : c.covers cat a = true) : j = k := by
  obtain ⟨hj', rfl⟩ := List.getElem?_eq_some_iff.1 hj
  obtain ⟨hk', rfl⟩ := List.getElem?_eq_some_iff.1 hk
  have hdisj := List.pairwise_iff_getElem.1 h.blocksDisjoint
  rcases lt_trichotomy j k with hlt | heq | hgt
  · exact absurd (Block.overlaps_of_covers hb hc) (by simp [hdisj j k hj' hk' hlt])
  · exact heq
  · exact absurd (Block.overlaps_of_covers hc hb) (by simp [hdisj k j hk' hj' hgt])

/-- With disjoint blocks inside the 16-bit addresses, an address is covered when some block covers it. -/
theorem Slave.Inv.covered_iff_exists {sl : Slave} (h : sl.Inv) (cat : Category) (a : Nat) :
    sl.covered cat a = true ↔ ∃ b ∈ sl.blocks, b.covers cat a = true := by
  rw [Slave.covered_iff, countP_eq_one_iff_existsUnique]
  constructor
  · rintro ⟨-, k, ⟨b, hk, hb⟩, -⟩
    exact ⟨b, List.mem_of_getElem? hk, hb⟩
  · rintro ⟨b, hmem, hb⟩
    obtain ⟨k, hk⟩ := List.getElem?_of_mem hmem
    have hin := (b.covers_iff cat a).1 hb
    have hbound := h.blocksBounded b hmem
    exact ⟨by omega, k, ⟨b, hk, hb⟩, fun j ⟨c, hj, hc⟩ => h.covering_index_unique hj hc hk hb⟩

/-- Settles O19: the count of covering rows is one when one index covers, which disjoint blocks make certain. -/
theorem coverageIsExactlyOneBlock : Obligations.CoverageIsExactlyOneBlock := by
  constructor
  · intro sl cat a
    simpa only [Block.covers_iff] using
      (sl.covered_iff cat a).trans (and_congr_right' (countP_eq_one_iff_existsUnique _ _))
  · intro sl cat a h
    simpa only [Block.covers_iff] using h.covered_iff_exists cat a

end Sys2Proof.Machine
end

section
/-! SUPPORT. A range past the top of the address space: no block table covers it, and no request of a legal count
gets at the Store with it (R24, R69). -/

namespace Sys2Proof.Machine

/-- The last address of a range that runs past 0xFFFF is no 16-bit address, so it is not covered. -/
theorem Slave.coversRange_past_top (sl : Slave) (cat : Category) {a n : Nat} (hn : 1 ≤ n) (h : 0x10000 < a + n) :
    sl.coversRange cat a n = false := by
  refine (Slave.coversRange_eq_false _ _ _ _).2 fun hall => ?_
  obtain ⟨hle, -⟩ := (Slave.covered_iff _ _ _).1 (hall (n - 1) (by omega))
  omega

/-- A request of a legal count whose work finds its range not covered answers IllegalDataAddress and stores nothing
(R70, R72, R205). -/
theorem answersException_of_uncovered {i : Instr} {s : State} {sl : Slave} (fc : Byte) {limit n : Nat} {failure : Bool}
    {work : Slave → Option (List Byte × Slave)} (hs : s.server.currentSlave = some sl)
    (he : exec i s = serveRequest fc (legalCount limit n) failure work s) (hn : 1 ≤ n ∧ n ≤ limit)
    (hw : work sl = none) : AnswersException i s sl (fc ||| 0x80) 0x02 :=
  answersException_of_raise (code := .illegalDataAddress) hs <|
    he.trans (serveRequest_uncovered hs ((legalCount_iff limit n).2 hn) hw)

/-- Settles O20: no block table covers the range's last address, so the work of each request finds nothing to read
and nowhere to write. -/
theorem rangePastTheTopIsRejected : Obligations.RangePastTheTopIsRejected := by
  intro s sl addr count vals hs hn htop hlen
  have hread {α : Type} (cat : Category) (init : α) (m : Memory α) :
      sl.memRead cat init m addr.toNat count.toNat = none :=
    Slave.memRead_eq_none (sl.coversRange_past_top cat hn htop)
  have hwrite : sl.writeHoldings addr.toNat vals = none :=
    Slave.writeHoldings_eq_none (hlen ▸ sl.coversRange_past_top .holdingRegister hn htop)
  refine ⟨fun hmax => ⟨?_, ?_⟩, fun hmax => ⟨?_, ?_⟩, fun hmax => ?_⟩
  · exact answersException_of_uncovered 0x01 hs rfl ⟨hn, hmax⟩ (Option.map_eq_none_iff.2 (hread _ _ _))
  · exact answersException_of_uncovered 0x02 hs rfl ⟨hn, hmax⟩ (Option.map_eq_none_iff.2 (hread _ _ _))
  · exact answersException_of_uncovered 0x03 hs rfl ⟨hn, hmax⟩ (Option.map_eq_none_iff.2 (hread _ _ _))
  · exact answersException_of_uncovered 0x04 hs rfl ⟨hn, hmax⟩ (Option.map_eq_none_iff.2 (hread _ _ _))
  · exact answersException_of_uncovered 0x10 hs rfl ⟨hlen ▸ hn, hlen ▸ hmax⟩ (Option.map_eq_none_iff.2 hwrite)

end Sys2Proof.Machine
end

section
/-! SUPPORT. The frames of the instructions: what execution leaves as it was, for the instructions that store nothing
and for the two writes (R75, R180, R202). -/

namespace Sys2Proof.Machine

theorem Executed.answers {s t : State} {sl sl' : Slave} {pdu : List Byte} (h : Executed s t sl sl' pdu) :
    Answers s t sl.addr pdu := by
  rw [h.eq]
  exact answers_load sl.addr pdu (.inr ⟨sl', rfl⟩)

theorem Executed.slaves {s t : State} {sl sl' : Slave} {pdu : List Byte} (h : Executed s t sl sl' pdu) :
    t.server.slaves = s.server.slaves.set s.server.curSlave sl' := by
  rw [h.eq]
  rfl

theorem Executed.slaves_same {s t : State} {sl : Slave} {pdu : List Byte} (h : Executed s t sl sl pdu) :
    t.server.slaves = s.server.slaves :=
  h.slaves.trans (congrArg Server.slaves (Server.storeSlave_self h.current))

theorem Executed.currentSlave {s t : State} {sl sl' : Slave} {pdu : List Byte} (h : Executed s t sl sl' pdu) :
    t.server.currentSlave = some sl' := by
  rw [h.eq]
  exact Server.currentSlave_storeSlave h.current

/-- A request whose work only reads leaves the current Slave as it was, whatever it answers. -/
theorem serveRequest_executed_of_read {β : Type} {fc : Byte} {legal failure : Bool} {read : Slave → Option β}
    {pduOfRead : β → List Byte} {s t : State}
    (h : serveRequest fc legal failure (fun sl => (read sl).map fun v => (pduOfRead v, sl)) s = .next t) :
    ∃ sl pdu, Executed s t sl sl pdu := by
  obtain ⟨sl, hs, ⟨code, ht⟩ | ⟨-, pdu, sl', hw, ht⟩⟩ := serveRequest_next h
  · exact ⟨sl, _, executed_same hs ht⟩
  · obtain ⟨v, -, he⟩ := Option.map_eq_some_iff.1 hw
    obtain ⟨-, rfl⟩ := Prod.mk.inj he
    exact ⟨sl, pdu, hs, .inl rfl, ht⟩

/-- A request whose work writes HoldingRegisters stores nothing or stores its values, all in its own range. -/
theorem serveRequest_executed_of_write {fc : Byte} {legal failure : Bool} {a : Nat} {vals : List Word}
    {rsp : List Byte} {s t : State}
    (h : serveRequest fc legal failure (fun sl => (sl.writeHoldings a vals).map fun sl' => (rsp, sl')) s = .next t) :
    ∃ sl sl' pdu, Executed s t sl sl' pdu ∧ (sl' = sl ∨ sl.writeHoldings a vals = some sl') := by
  obtain ⟨sl, hs, ⟨code, ht⟩ | ⟨-, pdu, sl', hw, ht⟩⟩ := serveRequest_next h
  · exact ⟨sl, sl, _, executed_same hs ht, .inl rfl⟩
  · obtain ⟨sl'', hv, he⟩ := Option.map_eq_some_iff.1 hw
    obtain ⟨-, rfl⟩ := Prod.mk.inj he
    rw [(Slave.writeHoldings_frame hv).1] at ht
    exact ⟨sl, _, pdu, ⟨hs, .inr ⟨a, vals, hv⟩, ht⟩, .inr hv⟩

theorem sendResponse_executed {rsp : Instr} {s t : State} (h : sendResponse rsp s = .next t) :
    ∃ sl pdu, Executed s t sl sl pdu := by
  unfold sendResponse at h
  split at h
  · obtain ⟨sl, hx⟩ := respond_executed h
    exact ⟨sl, _, hx⟩
  · cases h

/-- Every instruction that is no write leaves the current Slave as it was (R75, R160). -/
theorem exec_executed_of_not_write {i : Instr} {s t : State} (hws : ∀ a v, i ≠ .wrSingle a v)
    (hwm : ∀ a vs, i ≠ .wrMulti a vs) (h : exec i s = .next t) : ∃ sl pdu, Executed s t sl sl pdu := by
  cases i with
  | rdCoils addr count => exact serveRequest_executed_of_read h
  | rdDiscrete addr count => exact serveRequest_executed_of_read h
  | rdHolding addr count => exact serveRequest_executed_of_read h
  | rdInput addr count => exact serveRequest_executed_of_read h
  | wrSingle addr value => exact absurd rfl (hws addr value)
  | wrMulti addr vals => exact absurd rfl (hwm addr vals)
  | unsupported fc payload =>
    obtain ⟨sl, hx⟩ := respond_executed h
    exact ⟨sl, _, hx⟩
  | rspRdCoils data => exact sendResponse_executed h
  | rspRdDiscrete data => exact sendResponse_executed h
  | rspRdHolding vals => exact sendResponse_executed h
  | rspRdInput vals => exact sendResponse_executed h
  | rspWrSingle addr value => exact sendResponse_executed (rsp := .rspWrSingle addr value) h
  | rspWrMulti addr count => exact sendResponse_executed h
  | rspException fc code => exact sendResponse_executed h

/-- Settles O36: an instruction that is no write leaves the current Slave as it was, and of the rest an answer
writes only the response and what goes with sending it. -/
theorem nonWritesChangeNoStore : Obligations.NonWritesChangeNoStore := by
  intro i s t hws hwm h
  obtain ⟨sl, pdu, hx⟩ := exec_executed_of_not_write hws hwm h
  have ha := hx.answers
  exact ⟨hx.slaves_same, ha.rxBuf, ha.txRest, ha.resync, ha.gapTimer, ha.curSlave, ha.inbox, ha.wire, ha.replies⟩

/-- A write of `n` values at `addr` stores nothing, or `n` values at `addr` in the current Slave (R180). -/
theorem exec_executed_of_write {i : Instr} {addr : Word} {n : Nat} {s t : State}
    (hi : (∃ value, i = .wrSingle addr value ∧ n = 1) ∨ (∃ vals, i = .wrMulti addr vals ∧ n = vals.length))
    (h : exec i s = .next t) :
    ∃ sl sl' pdu, Executed s t sl sl' pdu ∧
      (sl' = sl ∨ ∃ vals, vals.length = n ∧ sl.writeHoldings addr.toNat vals = some sl') := by
  obtain ⟨value, rfl, rfl⟩ | ⟨vals, rfl, rfl⟩ := hi
  · obtain ⟨sl, sl', pdu, hx, hsl⟩ := serveRequest_executed_of_write h
    exact ⟨sl, sl', pdu, hx, hsl.imp_right fun hw => ⟨[value], rfl, hw⟩⟩
  · obtain ⟨sl, sl', pdu, hx, hsl⟩ := serveRequest_executed_of_write h
    exact ⟨sl, sl', pdu, hx, hsl.imp_right fun hw => ⟨vals, rfl, hw⟩⟩

/-- Settles O37: the current Slave is as it was or has the write's values stored, a store reaches no address outside
its range, and the rest is as an answer leaves it. -/
theorem writesChangeOnlyTheirRange : Obligations.WritesChangeOnlyTheirRange := by
  intro i addr n s t sl hi hs hwf h
  obtain ⟨sl₀, sl', pdu, hx, hsl⟩ := exec_executed_of_write hi h
  obtain rfl : sl₀ = sl := Option.some.inj (hx.current.symm.trans hs)
  have ha := hx.answers
  refine ⟨⟨sl', hx.currentSlave, ?_⟩, fun k hk => ?_, ha.rxBuf, ha.txRest, ha.resync, ha.gapTimer, ha.curSlave,
    ha.inbox, ha.wire, ha.replies⟩
  · obtain rfl | ⟨vals, rfl, hw⟩ := hsl
    · exact ⟨rfl, rfl, rfl, rfl, rfl, fun _ _ => rfl⟩
    · have hst := Slave.writeHoldings_stored hwf hw
      exact ⟨hst.addr, hst.blocks, hst.coils, hst.discretes, hst.inputs, hst.outside⟩
  · rw [hx.slaves, List.getElem?_set_ne hk.symm]

end Sys2Proof.Machine
end

section
/-! SUPPORT. The request decoder by its formats: what each reads, and what it takes those bytes from (R94 to R96,
R103, R110). -/

namespace Sys2Proof

theorem supportedFc_iff (fc : Byte) :
    supportedFc fc = true ↔ fc = 0x01 ∨ fc = 0x02 ∨ fc = 0x03 ∨ fc = 0x04 ∨ fc = 0x06 ∨ fc = 0x10 := by
  simp [supportedFc, or_assoc]

/-- A code outside the six selects the catch-all row, whatever follows it (R103, R112). -/
theorem decode_unsupported {fc : Byte} (h : supportedFc fc = false) (q : List Byte) :
    decode (fc :: q) = .ok (.unsupported fc q) := by
  rw [← Bool.not_eq_true, supportedFc_iff] at h
  simp only [not_or] at h
  obtain ⟨h1, h2, h3, h4, h6, h10⟩ := h
  rw [decode_cons, if_neg h1, if_neg h2, if_neg h3, if_neg h4, if_neg h6, if_neg h10]

/-- Two words are read from their four bytes and from nothing else (R94, R95). -/
theorem decodeTwoWords_eq_ok_iff {mk : Word → Word → Instr} {q : List Byte} {i : Instr} :
    decodeTwoWords mk q = .ok i ↔ ∃ x y, q = [hi8 x, lo8 x, hi8 y, lo8 y] ∧ i = mk x y := by
  constructor
  · intro h
    unfold decodeTwoWords at h
    split at h
    · next a1 a0 n1 n0 =>
      injection h with h
      exact ⟨be16 a1 a0, be16 n1 n0, by simp, h.symm⟩
    · cases h
  · rintro ⟨x, y, rfl, rfl⟩
    simp [decodeTwoWords]

/-- Up to 127 values, the count and the byte count of a write fit their fields (R96). -/
theorem wrMulti_counts_toNat {n : Nat} (h : n ≤ 127) :
    (BitVec.ofNat 16 n).toNat = n ∧ (BitVec.ofNat 8 (2 * n)).toNat = 2 * n := by
  rw [BitVec.toNat_ofNat, BitVec.toNat_ofNat]
  omega

/-- A write is read from its own bytes and from nothing else, up to the 127 values a byte count can count (R96). -/
theorem decodeWrMulti_eq_ok_iff {q : List Byte} {i : Instr} :
    decodeWrMulti q = .ok i ↔
      ∃ addr vals, vals.length ≤ 127 ∧ encodeWrMulti addr vals = 0x10 :: q ∧ i = .wrMulti addr vals := by
  constructor
  · intro h
    unfold decodeWrMulti at h
    split at h
    · next a1 a0 n1 n0 bc data =>
      split at h
      · next hc =>
        obtain ⟨hbc, hlen⟩ := hc
        injection h with h
        have hbc256 := bc.isLt
        have hvals : (wordsOf data).length = (be16 n1 n0).toNat := by rw [wordsOf_length]; omega
        refine ⟨be16 a1 a0, wordsOf data, by omega, ?_, h.symm⟩
        rw [encodeWrMulti, hvals, ← hbc, regsBytes_wordsOf data (by omega)]
        simp [encodeTwoWords]
      · cases h
    · cases h
  · rintro ⟨addr, vals, hle, he, rfl⟩
    obtain rfl := List.tail_eq_of_cons_eq he
    obtain ⟨hcount, hbc⟩ := wrMulti_counts_toNat hle
    simp [decodeWrMulti, hcount, hbc]

/-- Settles O9: each format reads back what its encoding wrote; the function code selects the format. -/
theorem requestsDecodeFromTheirEncoding : Obligations.RequestsDecodeFromTheirEncoding := by
  intro i hi hwf
  cases i with
  | rdCoils addr count => exact decodeTwoWords_eq_ok_iff.2 ⟨addr, count, rfl, rfl⟩
  | rdDiscrete addr count => exact decodeTwoWords_eq_ok_iff.2 ⟨addr, count, rfl, rfl⟩
  | rdHolding addr count => exact decodeTwoWords_eq_ok_iff.2 ⟨addr, count, rfl, rfl⟩
  | rdInput addr count => exact decodeTwoWords_eq_ok_iff.2 ⟨addr, count, rfl, rfl⟩
  | wrSingle addr value => exact decodeTwoWords_eq_ok_iff.2 ⟨addr, value, rfl, rfl⟩
  | wrMulti addr vals =>
    rw [Instr.wellFormed, countWithin_iff, Config.maxWriteRegs] at hwf
    exact decodeWrMulti_eq_ok_iff.2 ⟨addr, vals, by omega, rfl, rfl⟩
  | unsupported fc payload =>
    rw [Instr.wellFormed, Bool.and_eq_true, Bool.not_eq_true'] at hwf
    exact decode_unsupported hwf.1 payload
  | rspRdCoils data => cases hi
  | rspRdDiscrete data => cases hi
  | rspRdHolding vals => cases hi
  | rspRdInput vals => cases hi
  | rspWrSingle addr value => cases hi
  | rspWrMulti addr count => cases hi
  | rspException fc code => cases hi

theorem encode_of_decodeTwoWords {fc : Byte} {mk : Word → Word → Instr} {q : List Byte} {i : Instr}
    (hmk : ∀ x y, encode (mk x y) = encodeTwoWords fc x y) (h : decodeTwoWords mk q = .ok i) :
    encode i = fc :: q := by
  obtain ⟨x, y, rfl, rfl⟩ := decodeTwoWords_eq_ok_iff.1 h
  exact hmk x y

/-- Settles O11: each format reads only from the bytes of an encoding, and the catch-all keeps them all. -/
theorem decodedRequestsEncodeBack : Obligations.DecodedRequestsEncodeBack := by
  intro p i h
  cases p with
  | nil => cases h
  | cons fc q =>
    cases hs : supportedFc fc with
    | true =>
      obtain rfl | rfl | rfl | rfl | rfl | rfl := (supportedFc_iff fc).1 hs
      · exact encode_of_decodeTwoWords (fun _ _ => rfl) h
      · exact encode_of_decodeTwoWords (fun _ _ => rfl) h
      · exact encode_of_decodeTwoWords (fun _ _ => rfl) h
      · exact encode_of_decodeTwoWords (fun _ _ => rfl) h
      · exact encode_of_decodeTwoWords (fun _ _ => rfl) h
      · obtain ⟨addr, vals, -, he, rfl⟩ := decodeWrMulti_eq_ok_iff.1 h
        exact he
    | false =>
      rw [decode_unsupported hs] at h
      injection h with h
      exact h ▸ rfl

/-- Settles O12: the words are closed, so the decoders compute. -/
theorem writtenOutWordsDecode : Obligations.WrittenOutWordsDecode := by
  unfold Obligations.WrittenOutWordsDecode
  decide

end Sys2Proof
end

section
/-! SUPPORT. The checks of R110: a request is read and well-formed exactly when the bytes of its PDU pass them. -/

namespace Sys2Proof.Machine

/-- Two words are read from a PDU of five bytes, and the instruction they make decides the rest (R94, R95). -/
theorem exists_decodeTwoWords_iff {mk : Word → Word → Instr} (fc : Byte) (q : List Byte) :
    (∃ i, decodeTwoWords mk q = .ok i ∧ i.wellFormed = true) ↔
      (fc :: q).length = 5 ∧
        (mk (be16 (q.getD 0 0) (q.getD 1 0)) (be16 (q.getD 2 0) (q.getD 3 0))).wellFormed = true := by
  constructor
  · rintro ⟨i, h, hwf⟩
    obtain ⟨x, y, rfl, rfl⟩ := decodeTwoWords_eq_ok_iff.1 h
    simpa using hwf
  · rintro ⟨hlen, hwf⟩
    obtain ⟨a1, a0, n1, n0, rfl⟩ : ∃ a1 a0 n1 n0, [a1, a0, n1, n0] = q := by
      simpa [List.length_eq_succ_iff] using hlen
    exact ⟨_, rfl, hwf⟩

/-- A read is well-formed in a PDU of five bytes with a count within its limit (R94, R111). -/
theorem exists_decodeRead_iff {mk : Word → Word → Instr} {limit : Nat}
    (hmk : ∀ x y, (mk x y).wellFormed = countWithin limit y.toNat) (fc : Byte) (q : List Byte) :
    (∃ i, decodeTwoWords mk q = .ok i ∧ i.wellFormed = true) ↔
      decide ((fc :: q).length = 5 ∧ 1 ≤ (be16 (q.getD 2 0) (q.getD 3 0)).toNat ∧
        (be16 (q.getD 2 0) (q.getD 3 0)).toNat ≤ limit) = true := by
  rw [exists_decodeTwoWords_iff fc, hmk, countWithin_iff, decide_eq_true_iff]

theorem pduLegal_wrMulti_iff (q : List Byte) :
    pduLegal (0x10 :: q) = true ↔ 6 ≤ (0x10 :: q).length ∧
      1 ≤ (be16 (q.getD 2 0) (q.getD 3 0)).toNat ∧ (be16 (q.getD 2 0) (q.getD 3 0)).toNat ≤ 123 ∧
      (q.getD 4 0).toNat = 2 * (be16 (q.getD 2 0) (q.getD 3 0)).toNat ∧
      (0x10 :: q).length = 6 + (q.getD 4 0).toNat :=
  decide_eq_true_iff

/-- A write is well-formed when its byte count and its length are those its legal count implies (R96, R110). -/
theorem exists_decodeWrMulti_iff (q : List Byte) :
    (∃ i, decodeWrMulti q = .ok i ∧ i.wellFormed = true) ↔ pduLegal (0x10 :: q) = true := by
  rw [pduLegal_wrMulti_iff]
  constructor
  · rintro ⟨i, h, hwf⟩
    obtain ⟨addr, vals, -, he, rfl⟩ := decodeWrMulti_eq_ok_iff.1 h
    rw [Instr.wellFormed, countWithin_iff, Config.maxWriteRegs] at hwf
    obtain rfl := List.tail_eq_of_cons_eq he
    obtain ⟨hcount, hbc⟩ := wrMulti_counts_toNat (n := vals.length) (by omega)
    simp +arith [hcount, hbc, hwf]
  · match q with
    | [] | [_] | [_, _] | [_, _, _] | [_, _, _, _] => simp
    | a1 :: a0 :: n1 :: n0 :: bc :: data =>
      rintro ⟨-, hlo, hhi, hbc, hl⟩
      simp only [List.length_cons, List.getD_cons_succ, List.getD_cons_zero] at hlo hhi hbc hl
      refine ⟨.wrMulti (be16 a1 a0) (wordsOf data), if_pos ⟨hbc, by omega⟩, ?_⟩
      rw [Instr.wellFormed, countWithin_iff, Config.maxWriteRegs, wordsOf_length]
      omega

/-- Settles O8: format by format. -/
theorem decoderAcceptsExactlyLegalPdus : Obligations.DecoderAcceptsExactlyLegalPdus := by
  intro p hs hne
  cases p with
  | nil => exact absurd rfl hne
  | cons fc q =>
    obtain rfl | rfl | rfl | rfl | rfl | rfl := (supportedFc_iff fc).1 hs
    · exact exists_decodeRead_iff (fun _ _ => rfl) 0x01 q
    · exact exists_decodeRead_iff (fun _ _ => rfl) 0x02 q
    · exact exists_decodeRead_iff (fun _ _ => rfl) 0x03 q
    · exact exists_decodeRead_iff (fun _ _ => rfl) 0x04 q
    · exact (exists_decodeTwoWords_iff 0x06 q).trans ((and_iff_left rfl).trans decide_eq_true_iff.symm)
    · exact exists_decodeWrMulti_iff q

end Sys2Proof.Machine
end

section
/-! SUPPORT. The reader of responses by its formats, and bit 7, which marks an exception (R97, R98, R101, R262). -/

namespace Sys2Proof

/-- Setting bit 7 leaves every other bit. -/
theorem getLsbD_or_0x80 (fc : Byte) (k : Nat) : (fc ||| 0x80).getLsbD k = (fc.getLsbD k || decide (k = 7)) := by
  rw [BitVec.getLsbD_or, show (0x80 : Byte) = BitVec.twoPow 8 7 from rfl, BitVec.getLsbD_twoPow]
  simp [eq_comm]

/-- The exception mark leaves the 7 bits of the function code readable (R101). -/
theorem extractLsb'_setWidth_or_0x80 (fc : BitVec 7) : (fc.setWidth 8 ||| 0x80).extractLsb' 0 7 = fc := by
  apply BitVec.eq_of_getLsbD_eq
  intro k hk
  have hk8 : k < 8 := by omega
  rw [BitVec.getLsbD_extractLsb', Nat.zero_add, getLsbD_or_0x80, BitVec.getLsbD_setWidth]
  simp [hk, hk8, hk.ne]

/-- A function code and its low 7 bits are marked alike (R101, D29). -/
theorem setWidth_setWidth_or_0x80 (fc : Byte) : (fc.setWidth 7).setWidth 8 ||| 0x80 = fc ||| 0x80 := by
  apply BitVec.eq_of_getLsbD_eq
  intro k hk
  rw [getLsbD_or_0x80, getLsbD_or_0x80, BitVec.getLsbD_setWidth, BitVec.getLsbD_setWidth]
  obtain h | rfl : k < 7 ∨ k = 7 := by omega
  · simp [h, hk]
  · simp

/-- A byte count that fits one byte counts exactly its data (R97, R98). -/
theorem decodeCounted_encoded (mk : List Byte → Except DecodeError Instr) {data : List Byte}
    (h : data.length < 256) : decodeCounted mk (BitVec.ofNat 8 data.length :: data) = mk data :=
  if_pos (by rw [BitVec.toNat_ofNat, Nat.mod_eq_of_lt h])

/-- Data bytes that fit one byte count are read back (R98). -/
theorem decodeCounted_data (mk : List Byte → Instr) {data : List Byte} (h : data.length ≤ 250) :
    decodeCounted (fun d => .ok (mk d)) (BitVec.ofNat 8 data.length :: data) = .ok (mk data) :=
  decodeCounted_encoded _ (by omega)

theorem decodeValues_regsBytes (mk : List Word → Instr) (vals : List Word) :
    decodeValues mk (regsBytes vals) = .ok (mk vals) := by
  simp [decodeValues]

/-- Values whose bytes fit one byte count are read back (R97). -/
theorem decodeCounted_values (mk : List Word → Instr) {vals : List Word} (h : vals.length ≤ 125) :
    decodeCounted (decodeValues mk) (BitVec.ofNat 8 (regsBytes vals).length :: regsBytes vals) = .ok (mk vals) := by
  rw [decodeCounted_encoded _ (by rw [regsBytes_length]; omega), decodeValues_regsBytes]

/-- A marked function code selects the exception format, whatever its low bits (R101). -/
theorem decodeResponse_exception (fc : BitVec 7) (code : Byte) :
    decodeResponse [fc.setWidth 8 ||| 0x80, code] = .ok (.rspException fc code) := by
  have h7 : (fc.setWidth 8 ||| 0x80).getLsbD 7 = true := by rw [getLsbD_or_0x80]; simp
  rw [decodeResponse, if_pos h7, decodeException, extractLsb'_setWidth_or_0x80]

/-- Settles O10: each format reads back what its encoding wrote; bit 7 and the function code select the format. -/
theorem responsesDecodeFromTheirEncoding : Obligations.ResponsesDecodeFromTheirEncoding := by
  intro i hi hwf
  cases i with
  | rdCoils addr count => cases hi
  | rdDiscrete addr count => cases hi
  | rdHolding addr count => cases hi
  | rdInput addr count => cases hi
  | wrSingle addr value => cases hi
  | wrMulti addr vals => cases hi
  | unsupported fc payload => cases hi
  | rspRdCoils data => exact decodeCounted_data .rspRdCoils ((countWithin_iff _ _).1 hwf).2
  | rspRdDiscrete data => exact decodeCounted_data .rspRdDiscrete ((countWithin_iff _ _).1 hwf).2
  | rspRdHolding vals => exact decodeCounted_values _ ((countWithin_iff _ _).1 hwf).2
  | rspRdInput vals => exact decodeCounted_values _ ((countWithin_iff _ _).1 hwf).2
  | rspWrSingle addr value => exact decodeTwoWords_eq_ok_iff.2 ⟨addr, value, rfl, rfl⟩
  | rspWrMulti addr count => exact decodeTwoWords_eq_ok_iff.2 ⟨addr, count, rfl, rfl⟩
  | rspException fc code => exact decodeResponse_exception fc code

/-- Settles O34: the bytes of two words and of counted data are the formats' definitions, and a marked function code
has bit 7 set. -/
theorem responseLayouts : Obligations.ResponseLayouts := by
  have hvals (fc : Byte) (vals : List Word) :
      encodeCounted fc (regsBytes vals) = fc :: BitVec.ofNat 8 (2 * vals.length) :: regsBytes vals := by
    rw [encodeCounted, regsBytes_length]
  refine ⟨fun _ => rfl, fun _ => rfl, hvals 0x03, hvals 0x04, fun _ _ => rfl, fun _ _ => rfl, fun fc code => ?_⟩
  rw [encode, setWidth_setWidth_or_0x80]

end Sys2Proof
end

section
/-! SUPPORT. Responses on their way out: what is sent, what is refused, and the check every sent frame passes
(R101, R102, R112, R141, R144). -/

namespace Sys2Proof.Machine

/-- Settles O15: bit by bit. -/
theorem exceptionPduSetsTheHighBit : Obligations.ExceptionPduSetsTheHighBit := by
  intro fc code
  refine ⟨rfl, fun k hk => ?_, ?_, fun h7 => ?_⟩
  · rw [getLsbD_or_0x80, decide_eq_false hk.ne, Bool.or_false]
  · rw [getLsbD_or_0x80, decide_eq_true rfl, Bool.or_true]
  · apply BitVec.eq_of_getLsbD_eq
    intro k hk
    rw [getLsbD_or_0x80]
    obtain rfl | hne := eq_or_ne k 7
    · simp [h7]
    · simp [hne]

/-- A response is carried out by sending it (R102, R204). -/
theorem exec_response {i : Instr} (hi : i.isRequest = false) (s : State) : exec i s = sendResponse i s := by
  cases i with
  | rdCoils addr count => cases hi
  | rdDiscrete addr count => cases hi
  | rdHolding addr count => cases hi
  | rdInput addr count => cases hi
  | wrSingle addr value => cases hi
  | wrMulti addr vals => cases hi
  | unsupported fc payload => cases hi
  | rspRdCoils data => rfl
  | rspRdDiscrete data => rfl
  | rspRdHolding vals => rfl
  | rspRdInput vals => rfl
  | rspWrSingle addr value => rfl
  | rspWrMulti addr count => rfl
  | rspException fc code => rfl

theorem sendResponse_refused {rsp : Instr} (s : State) (h : rsp.wellFormed = false) :
    sendResponse rsp s = .refused .illFormedResponse := by
  simp [sendResponse, h]

/-- Settles O33: a response is sent, and sending answers with its bytes. -/
theorem responsesAreSent : Obligations.ResponsesAreSent := by
  intro i s sl hi hwf hs
  rw [exec_response hi, sendResponse_eq s hwf]
  exact respond_answers (encode i) hs

/-- Settles O35: a response is sent, and sending refuses an ill-formed one. -/
theorem illFormedResponsesAreRefused : Obligations.IllFormedResponsesAreRefused := by
  intro i s hi hwf
  rw [exec_response hi, sendResponse_refused s hwf]

/-- Settles O30: the decoder's catch-all row, whose meaning raises IllegalFunction. -/
theorem unsupportedAnswersIllegalFunction : Obligations.UnsupportedAnswersIllegalFunction := by
  intro fc payload s sl hfc hs
  have hsup : supportedFc fc = false := by
    rw [← Bool.not_eq_true, supportedFc_iff]
    simpa using hfc
  exact ⟨decode_unsupported hsup payload, answersException_of_raise (code := .illegalFunction) hs rfl⟩

/-- Whatever is executed, a response is loaded: requests and responses alike (R204). -/
theorem exec_executed {i : Instr} {s t : State} (h : exec i s = .next t) :
    ∃ sl sl' pdu, Executed s t sl sl' pdu := by
  cases hi : i.isRequest with
  | true =>
    obtain ⟨sl, sl', pdu, -, hx⟩ := exec_request_executed hi h
    exact ⟨sl, sl', pdu, hx⟩
  | false =>
    rw [exec_response hi] at h
    obtain ⟨sl, pdu, hx⟩ := sendResponse_executed h
    exact ⟨sl, sl, pdu, hx⟩

/-- A byte sequence with its CRC appended passes the check (R141, R144). -/
theorem crcOk_append_crcBytes (q : List Byte) : crcOk (q ++ crcBytes q) = true := by
  simp [crcOk, crcBytes]

/-- Settles O18: what is executed loads a frame, which starts with the address and ends with its own CRC. -/
theorem transmittedFramesPassTheCheck : Obligations.TransmittedFramesPassTheCheck := by
  intro i s t sl hs h
  obtain ⟨sl₀, sl', pdu, hx⟩ := exec_executed h
  obtain rfl : sl₀ = sl := Option.some.inj (hx.current.symm.trans hs)
  rw [hx.answers.frame]
  exact ⟨rfl, crcOk_append_crcBytes _⟩

/-- Settles O47: a frame is accepted only for a Slave of its address, and 0 and 248..255 are no Slave's (R39 I-6). -/
theorem reservedAddressesAreDropped : Obligations.ReservedAddressesAreDropped := by
  intro v a hinv ha hres
  obtain hdrop | ⟨k, sl, hk, -, -, haddr, -⟩ := v.completeFrame_cases
  · exact hdrop
  · obtain rfl : a = sl.addr := Option.some.inj (ha.symm.trans haddr)
    obtain ⟨hlo, hhi⟩ := (hinv sl (List.mem_of_getElem? hk)).addrLegal
    rw [Config.addrMin] at hlo
    rw [Config.addrMax] at hhi
    obtain h0 | h248 := hres
    · simp [h0] at hlo
    · omega

end Sys2Proof.Machine
end

section
/-! SUPPORT. The CRC register over appended bytes, and the two bytes that bring it to 0 (R140, R143). -/

namespace Sys2Proof.Machine

theorem crc16_append_byte (q : List Byte) (b : Byte) : crc16 (q ++ [b]) = crcByte (crc16 q) b := by
  rw [crc16_append, crcFrom_cons, crcFrom_nil]

theorem crc16_append_two (q : List Byte) (b0 b1 : Byte) :
    crc16 (q ++ [b0, b1]) = crcByte (crcByte (crc16 q) b0) b1 := by
  rw [crc16_append, crcFrom_cons, crcFrom_cons, crcFrom_nil]

/-- Settles O16: a byte appended is one byte step, which is the 8 shifts; the rule's own values are closed terms. -/
theorem crcTakesBytesLowBitFirst : Obligations.CrcTakesBytesLowBitFirst := by
  refine ⟨rfl, fun q b => ?_, fun _ => rfl, ?_⟩
  · rw [crc16_append_byte]
    rfl
  · decide +kernel

/-- Two bytes clear the register exactly when they are its own, low byte first: the byte step loses nothing. -/
theorem crcByte_crcByte_eq_zero_iff (c : Word) (b0 b1 : Byte) :
    crcByte (crcByte c b0) b1 = 0 ↔ c = be16 b1 b0 := by
  have hown : crcByte (crcByte (be16 b1 b0) b0) b1 = 0 := by simpa using crcByte_lo8_hi8 (be16 b1 b0)
  constructor
  · intro h
    exact crcByte_injective (crcByte_injective (h.trans hown.symm))
  · rintro rfl
    exact hown

/-- The check of a frame taken apart into its last two bytes and the rest (R141). -/
theorem crcOk_append_two_iff (q : List Byte) (b0 b1 : Byte) :
    crcOk (q ++ [b0, b1]) = true ↔ crc16 q = be16 b1 b0 := by
  simp [crcOk]

/-- Settles O17: the byte steps over a sequence's own CRC clear the register, and no other two bytes do. -/
theorem crcResidueIsZero : Obligations.CrcResidueIsZero := by
  constructor
  · intro q
    rw [crc16_append_two, crcByte_lo8_hi8]
  · intro f hf
    obtain ⟨b0, b1, htail⟩ : ∃ b0 b1, f.drop (f.length - 2) = [b0, b1] :=
      List.length_eq_two.1 (by rw [List.length_drop]; omega)
    rw [← List.take_append_drop (f.length - 2) f, htail, crcOk_append_two_iff, crc16_append_two,
      crcByte_crcByte_eq_zero_iff]

end Sys2Proof.Machine
end

section
/-! SUPPORT. The Frame Validator's verdict by the first test that fails, and what the Framer does with it (R142). -/

namespace Sys2Proof.Machine

section
variable {addrs f : List Byte}

theorem validate_eq_short (hl : f.length < Config.minFrame) : validate addrs f = .drop .short := if_pos hl

theorem validate_eq_crc (hl : Config.minFrame ≤ f.length) (hc : crcOk f = false) :
    validate addrs f = .drop .crc := by
  rw [validate, if_neg hl.not_gt, if_pos (by simp [hc])]

/-- Past the length and the CRC, a frame is dropped when its first byte is no Slave's address. -/
theorem validate_eq_address (hl : Config.minFrame ≤ f.length) (hc : crcOk f = true)
    (h : ∀ a ∈ addrs, f[0]? ≠ some a) : validate addrs f = .drop .address := by
  have hpos : 0 < f.length := lt_of_lt_of_le (by decide) hl
  have hidx : addrs.findIdx? (· == f.getD 0 0) = none := by
    rw [List.findIdx?_eq_none_iff]
    intro a ha
    have hne : f[0] ≠ a := by simpa [List.getElem?_eq_getElem hpos] using h a ha
    simpa [List.getElem?_eq_getElem hpos] using hne.symm
  rw [validate, if_neg hl.not_gt, if_neg (by simp [hc]), hidx]

/-- Past the length and the CRC, a frame is accepted for the one Slave whose address is its first byte. -/
theorem validate_eq_accept {a : Byte} {k : Nat} (hl : Config.minFrame ≤ f.length) (hc : crcOk f = true)
    (hd : addrs.Nodup) (hk : addrs[k]? = some a) (ha : f[0]? = some a) : validate addrs f = .accept k := by
  obtain ⟨hlt, rfl⟩ := List.getElem?_eq_some_iff.1 hk
  have hidx : addrs.findIdx? (· == f.getD 0 0) = some k := by
    rw [List.findIdx?_eq_some_iff_getElem]
    refine ⟨hlt, by simp [ha], fun j hj => ?_⟩
    have hne : addrs[j] ≠ addrs[k] := List.pairwise_iff_getElem.1 hd j k (by omega) hlt hj
    simpa [ha] using hne
  rw [validate, if_neg hl.not_gt, if_neg (by simp [hc]), hidx]

end

theorem Server.completeFrame_drop {v : Server} {r : DropReason}
    (h : validate (v.slaves.map Slave.addr) v.frame = .drop r) : v.completeFrame = { v with rxLen := 0 } := by
  rw [Server.completeFrame, h]

theorem Server.completeFrame_accept {v : Server} {k : Nat}
    (h : validate (v.slaves.map Slave.addr) v.frame = .accept k) :
    v.completeFrame = { v with curSlave := k, dispState := .processing } := by
  rw [Server.completeFrame, h]

/-- Settles O46: the verdict by the first test that fails, and the Framer follows it. -/
theorem frameCompletionChecksInOrder : Obligations.FrameCompletionChecksInOrder := by
  intro v
  refine ⟨fun hl => ?_, fun hl hc => ?_, fun hl hc hnone => ?_, fun k sl hl hc hd hk ha => ?_⟩
  · have hv := validate_eq_short (addrs := v.slaves.map Slave.addr) hl
    exact ⟨hv, Server.completeFrame_drop hv⟩
  · have hv := validate_eq_crc (addrs := v.slaves.map Slave.addr) hl hc
    exact ⟨hv, Server.completeFrame_drop hv⟩
  · have hv := validate_eq_address hl hc (List.forall_mem_map.2 hnone)
    exact ⟨hv, Server.completeFrame_drop hv⟩
  · have hv := validate_eq_accept hl hc (List.pairwise_map.2 hd) (by rw [List.getElem?_map, hk]; rfl) ha
    exact ⟨hv, Server.completeFrame_accept hv⟩

end Sys2Proof.Machine
end

section
/-! SUPPORT. What a byte and a silence do in each state that owns the channel (R131 to R137). -/

namespace Sys2Proof.Machine

theorem receiveByte_accept {s : State} (hd : s.server.dispState = .awaitingRequest) (hr : s.server.resync = false)
    (hl : s.server.rxLen < Config.maxFrame) (b : Byte) :
    receiveByte b s = .next { s with server := s.server.acceptByte b } := by
  simp [receiveByte, hd, hr, hl]

/-- Settles O42: an accepted byte is appended, and ends the frame at `MAX_FRAME` bytes. -/
theorem acceptedByteIsAppended : Obligations.AcceptedByteIsAppended := by
  intro b s hd hr
  constructor
  · intro hl
    have happend : s.server.acceptByte b = s.server.appendByte b := if_neg (ne_of_lt hl)
    have hnext := receiveByte_accept hd hr (Nat.lt_of_succ_lt hl) b
    rwa [happend] at hnext
  · intro hl
    have hcomplete : s.server.acceptByte b = { s.server.appendByte b with resync := true }.completeFrame :=
      if_pos hl
    have hnext := receiveByte_accept hd hr (Nat.lt_of_succ_le hl.le) b
    rwa [hcomplete] at hnext

/-- Settles O43: the branch of `RxByte` that waits for a silence. -/
theorem byteIsDiscardedUntilSilence : Obligations.ByteIsDiscardedUntilSilence := by
  intro b s hd hr
  simp [handleEvent, receiveByte, hd, hr]

/-- Settles O44: the two states in which a request is in flight. -/
theorem byteIsLostWhileBusy : Obligations.ByteIsLostWhileBusy := by
  rintro b s (hd | hd)
  · simp [handleEvent, receiveByte, hd]
  · simp [handleEvent, receiveByte, hd]

/-- Settles O45: what `Silence` does to the Server, state by state. -/
theorem silenceCompletesTheFrame : Obligations.SilenceCompletesTheFrame := by
  intro s
  refine ⟨fun hd hl => ?_, fun hd hl => ?_, ?_⟩
  · simp [handleEvent, Server.silence, hd, hl]
  · simp [handleEvent, Server.silence, hd, hl.ne']
  · rintro (hd | hd)
    · simp [handleEvent, Server.silence, hd]
    · simp [handleEvent, Server.silence, hd]

end Sys2Proof.Machine
end

section
/-! SUPPORT. Bits and register values as the bytes of a response, and those bytes behind their byte count (R165,
R166, R97, R98). -/

namespace Sys2Proof.Machine

/-- Bit `k` of a packed byte is the bit its sum of powers of two was given for `k`. -/
theorem packByte_getLsbD (v : List Bool) (j : Nat) {k : Nat} (hk : k < 8) :
    (packByte v j).getLsbD k = v.getD (8 * j + k) false := by
  obtain ⟨-, hbit⟩ := testBit_sum_pow (fun i => v.getD (8 * j + i) false) k 8
  rw [packByte, BitVec.getLsbD_ofNat, hbit]
  simp [hk]

theorem packBits_getD (v : List Bool) {j : Nat} (hj : j < (v.length + 7) / 8) :
    (packBits v).getD j 0 = packByte v j := by
  simp [packBits, hj]

/-- Settles O13: a data byte is one packed byte, and its bits are the values it was packed from. -/
theorem packedBitsStandLowestFirst : Obligations.PackedBitsStandLowestFirst := by
  refine fun v => ⟨packBits_length v, fun j k hj hk => ?_⟩
  rw [packBits_getD v hj, packByte_getLsbD v j hk]

/-- The two bytes of the value at an index stand at twice the index. -/
theorem regsBytes_getD (v : List Word) {i : Nat} (hi : i < v.length) :
    (regsBytes v).getD (2 * i) 0 = hi8 (v.getD i 0) ∧ (regsBytes v).getD (2 * i + 1) 0 = lo8 (v.getD i 0) := by
  induction v generalizing i with
  | nil => simp at hi
  | cons w v ih =>
    cases i with
    | zero => exact ⟨rfl, rfl⟩
    | succ i => exact ih (Nat.lt_of_succ_lt_succ hi)

/-- Settles O14: two bytes per value, by induction on the values. -/
theorem registerBytesStandHighFirst : Obligations.RegisterBytesStandHighFirst :=
  fun v => ⟨regsBytes_length v, fun _ hi => regsBytes_getD v hi⟩

/-- The bits read from `n` addresses, as a response carries them (R98). -/
theorem encodeCounted_packBits_readSeq (fc : Byte) (m : Memory Bool) (a n : Nat) :
    encodeCounted fc (packBits (Memory.readSeq Config.initBit m a n)) =
      fc :: BitVec.ofNat 8 ((n + 7) / 8) ::
        packBits ((List.range n).map fun i => Memory.read Config.initBit m (a + i)) := by
  rw [encodeCounted, packBits_length, Memory.readSeq_length, Memory.readSeq]

/-- The values read from `n` addresses, as a response carries them (R97). -/
theorem encodeCounted_regsBytes_readSeq (fc : Byte) (m : Memory Word) (a n : Nat) :
    encodeCounted fc (regsBytes (Memory.readSeq Config.initReg m a n)) =
      fc :: BitVec.ofNat 8 (2 * n) ::
        regsBytes ((List.range n).map fun i => Memory.read Config.initReg m (a + i)) := by
  rw [encodeCounted, regsBytes_length, Memory.readSeq_length, Memory.readSeq]

end Sys2Proof.Machine
end

section
/-! SUPPORT. The four read requests: the answer where the count is legal and the range covered, and the exceptions
elsewhere (R161 to R164, R263, R264). -/

namespace Sys2Proof.Machine

/-- A read of a legal count whose range is covered answers with the values of the range and stores nothing (R205). -/
theorem exec_read_answers {α : Type} {i : Instr} {s : State} {sl : Slave} {fc : Byte} {limit a n : Nat}
    {cat : Category} {init : α} {cells : Slave → Memory α} {pduOfRead : List α → List Byte}
    (he : exec i s = serveRequest fc (legalCount limit n) false
      (fun sl => (sl.memRead cat init (cells sl) a n).map fun v => (pduOfRead v, sl)) s)
    (hs : s.server.currentSlave = some sl) (hn : 1 ≤ n) (hmax : n ≤ limit) (hc : sl.CoversAll cat a n) :
    ∃ t, exec i s = .next t ∧ Answers s t sl.addr (pduOfRead (Memory.readSeq init (cells sl) a n)) ∧
      t.server.slaves = s.server.slaves := by
  have hread := Slave.memRead_eq_some (init := init) (m := cells sl) ((sl.coversRange_iff cat a n).2 hc)
  rw [he]
  exact serveRequest_read hs ((legalCount_iff limit n).2 ⟨hn, hmax⟩) rfl (by rw [hread]; rfl)

/-- Settles O21: the read of the Coil space, its bits packed. -/
theorem readCoilsAnswersTheBits : Obligations.ReadCoilsAnswersTheBits := by
  intro addr count s sl hs hn hmax hc
  rw [← encodeCounted_packBits_readSeq]
  exact exec_read_answers (cells := Slave.coils) (pduOfRead := fun v => encode (.rspRdCoils (packBits v)))
    rfl hs hn hmax hc

/-- Settles O22: the read of the DiscreteInput space, its bits packed. -/
theorem readDiscreteInputsAnswersTheBits : Obligations.ReadDiscreteInputsAnswersTheBits := by
  intro addr count s sl hs hn hmax hc
  rw [← encodeCounted_packBits_readSeq]
  exact exec_read_answers (cells := Slave.discretes) (pduOfRead := fun v => encode (.rspRdDiscrete (packBits v)))
    rfl hs hn hmax hc

/-- Settles O23: the read of the HoldingRegister space, high bytes first. -/
theorem readHoldingRegistersAnswersTheValues : Obligations.ReadHoldingRegistersAnswersTheValues := by
  intro addr count s sl hs hn hmax hc
  simp only [Slave.holding]
  rw [← encodeCounted_regsBytes_readSeq]
  exact exec_read_answers (cells := Slave.holdings) (pduOfRead := fun v => encode (.rspRdHolding v))
    rfl hs hn hmax hc

/-- Settles O24: the read of the InputRegister space, high bytes first. -/
theorem readInputRegistersAnswersTheValues : Obligations.ReadInputRegistersAnswersTheValues := by
  intro addr count s sl hs hn hmax hc
  rw [← encodeCounted_regsBytes_readSeq]
  exact exec_read_answers (cells := Slave.inputs) (pduOfRead := fun v => encode (.rspRdInput v))
    rfl hs hn hmax hc

/-- A request whose count is out of its limits answers IllegalDataValue before its address is looked at, and stores
nothing (R111, R205, R264). -/
theorem answersException_of_illegalCount {i : Instr} {s : State} {sl : Slave} (fc : Byte) {limit n : Nat}
    {failure : Bool} {work : Slave → Option (List Byte × Slave)} (hs : s.server.currentSlave = some sl)
    (he : exec i s = serveRequest fc (legalCount limit n) failure work s) (hn : ¬ (1 ≤ n ∧ n ≤ limit)) :
    AnswersException i s sl (fc ||| 0x80) 0x03 :=
  answersException_of_raise (code := .illegalDataValue) hs <|
    he.trans (serveRequest_illegal hs ((legalCount_eq_false limit n).2 hn))

/-- Settles O25: the count is tested first, and a range not covered gives the read nothing to answer with. -/
theorem badReadsAnswerTheirException : Obligations.BadReadsAnswerTheirException := by
  intro addr count s sl hs
  have hread {α : Type} {cat : Category} (init : α) (m : Memory α)
      (hc : ¬ sl.CoversAll cat addr.toNat count.toNat) : sl.memRead cat init m addr.toNat count.toNat = none :=
    Slave.memRead_eq_none ((sl.coversRange_eq_false _ _ _).2 hc)
  refine ⟨fun hn => ⟨?_, ?_⟩, fun hn => ⟨?_, ?_⟩, fun hn => ⟨fun hc => ?_, fun hc => ?_⟩,
    fun hn => ⟨fun hc => ?_, fun hc => ?_⟩⟩
  · exact answersException_of_illegalCount 0x01 hs rfl hn
  · exact answersException_of_illegalCount 0x02 hs rfl hn
  · exact answersException_of_illegalCount 0x03 hs rfl hn
  · exact answersException_of_illegalCount 0x04 hs rfl hn
  · exact answersException_of_uncovered 0x01 hs rfl hn (Option.map_eq_none_iff.2 (hread _ _ hc))
  · exact answersException_of_uncovered 0x02 hs rfl hn (Option.map_eq_none_iff.2 (hread _ _ hc))
  · exact answersException_of_uncovered 0x03 hs rfl hn (Option.map_eq_none_iff.2 (hread _ _ hc))
  · exact answersException_of_uncovered 0x04 hs rfl hn (Option.map_eq_none_iff.2 (hread _ _ hc))

end Sys2Proof.Machine
end

section
/-! SUPPORT. The two write requests: what is stored and answered where the write is legal and its range covered, the
exceptions elsewhere, and the read of what was stored (R180 to R184, R75). -/

namespace Sys2Proof.Machine

/-- A legal write whose range is covered stores its values and loads its response (R71, R205). -/
theorem exec_write_executed {i : Instr} {s : State} {sl : Slave} {fc : Byte} {legal : Bool} {a : Nat}
    {vals : List Word} {rsp : List Byte}
    (he : exec i s = serveRequest fc legal false (fun sl => (sl.writeHoldings a vals).map fun sl' => (rsp, sl')) s)
    (hs : s.server.currentSlave = some sl) (hl : legal = true) (hwf : Memory.wf Config.initReg sl.holdings)
    (hc : sl.CoversAll .holdingRegister a vals.length) :
    ∃ t sl', exec i s = .next t ∧ Executed s t sl sl' rsp ∧ StoredHoldings sl sl' a vals := by
  have hw := Slave.writeHoldings_eq_some ((sl.coversRange_iff _ _ _).2 hc)
  have hserve := he.trans (serveRequest_success hs hl rfl (Option.map_eq_some_iff.2 ⟨_, hw, rfl⟩))
  exact ⟨_, _, hserve.trans (respond_eq rsp (Server.currentSlave_storeSlave hs)), ⟨hs, .inr ⟨a, vals, hw⟩, rfl⟩,
    Slave.writeHoldings_stored hwf hw⟩

/-- Write Multiple Registers with a legal number of values and a covered range (R182). -/
theorem exec_wrMulti_executed {addr : Word} {vals : List Word} {s : State} {sl : Slave}
    (hs : s.server.currentSlave = some sl) (hwf : Memory.wf Config.initReg sl.holdings) (hn : 1 ≤ vals.length)
    (hmax : vals.length ≤ 123) (hc : sl.CoversAll .holdingRegister addr.toNat vals.length) :
    ∃ t sl', exec (.wrMulti addr vals) s = .next t ∧
      Executed s t sl sl' (encode (.rspWrMulti addr (BitVec.ofNat 16 vals.length))) ∧
      StoredHoldings sl sl' addr.toNat vals :=
  exec_write_executed rfl hs ((legalCount_iff Config.maxWriteRegs _).2 ⟨hn, hmax⟩) hwf hc

/-- Settles O26: a write of one value is always legal, and its response carries the request's two words. -/
theorem writeSingleStoresAndEchoes : Obligations.WriteSingleStoresAndEchoes := by
  intro addr value s sl hs hwf hc
  have hone : sl.CoversAll .holdingRegister addr.toNat [value].length := by simpa [Slave.CoversAll] using hc
  obtain ⟨t, sl', ht, hx, hst⟩ := exec_write_executed (i := .wrSingle addr value) rfl hs rfl hwf hone
  exact ⟨t, sl', ht, hx.answers, hst, hx.slaves⟩

/-- Settles O27: the values stored as one range, and the response of address and count. -/
theorem writeMultipleStoresAll : Obligations.WriteMultipleStoresAll := by
  intro addr vals s sl hs hwf hn hmax hc
  obtain ⟨t, sl', ht, hx, hst⟩ := exec_wrMulti_executed hs hwf hn hmax hc
  exact ⟨t, sl', ht, hx.answers, hst, hx.slaves⟩

/-- Settles O28: the count is tested before the range, and a range not covered leaves a write nowhere to store. -/
theorem failedWritesStoreNothing : Obligations.FailedWritesStoreNothing := by
  intro addr value vals s sl hs
  have hwrite {ws : List Word} (hc : ¬ sl.CoversAll .holdingRegister addr.toNat ws.length) :
      sl.writeHoldings addr.toNat ws = none :=
    Slave.writeHoldings_eq_none ((sl.coversRange_eq_false _ _ _).2 hc)
  refine ⟨fun hc => ?_, fun hn => ?_, fun hn hc => ?_⟩
  · have hone : ¬ sl.CoversAll .holdingRegister addr.toNat [value].length := by simp [Slave.CoversAll, hc]
    exact answersException_of_raise (fc := 0x06) (code := .illegalDataAddress) hs
      (serveRequest_uncovered hs rfl (Option.map_eq_none_iff.2 (hwrite hone)))
  · exact answersException_of_illegalCount 0x10 hs rfl hn
  · exact answersException_of_uncovered 0x10 hs rfl hn (Option.map_eq_none_iff.2 (hwrite hc))

/-- Coverage is a matter of the block table, which a write leaves as it was (R24, R71). -/
theorem StoredHoldings.coversAll {sl sl' : Slave} {a b n : Nat} {vals : List Word} {cat : Category}
    (h : StoredHoldings sl sl' a vals) (hc : sl.CoversAll cat b n) : sl'.CoversAll cat b n := by
  simpa only [Slave.CoversAll, Slave.covered, h.blocks] using hc

/-- The range stored, read in ascending address order, is the values stored (R75). -/
theorem StoredHoldings.map_holding {sl sl' : Slave} {a : Nat} {vals : List Word}
    (h : StoredHoldings sl sl' a vals) : ((List.range vals.length).map fun i => sl'.holding (a + i)) = vals :=
  List.ext_getElem (by simp) fun i _ hi => by simpa using h.inside i hi

/-- Settles O29: the read finds the range still covered in the Slave the write left, and every value in its place. -/
theorem writeThenReadReturnsTheValues : Obligations.WriteThenReadReturnsTheValues := by
  intro addr vals s sl hs hwf hn hmax hc
  obtain ⟨t, sl', ht, hx, hst⟩ := exec_wrMulti_executed hs hwf hn hmax hc
  have hcount : (BitVec.ofNat 16 vals.length).toNat = vals.length := by
    rw [BitVec.toNat_ofNat, Nat.mod_eq_of_lt (by omega)]
  obtain ⟨u, hu, ha, -⟩ := readHoldingRegistersAnswersTheValues addr (BitVec.ofNat 16 vals.length) t sl'
    hx.currentSlave (by omega) (by omega) (by rw [hcount]; exact hst.coversAll hc)
  rw [hcount, hst.map_holding, hst.addr] at ha
  exact ⟨t, u, ht, hu, ha⟩

end Sys2Proof.Machine
end

section
/-! SUPPORT. The dispatcher: which event a step handles, and the pairs of state and event that have no effect (R201,
R204, R207, R208). -/

namespace Sys2Proof.Machine

/-- In `Processing` a PDU that decodes is executed (R204, R205). -/
theorem process_of_decode {s : State} {i : Instr} (hd : s.server.dispState = .processing)
    (hi : decode (pduOf s.server.frame) = .ok i) : process s = exec i s := by
  rw [process, if_pos hd, hi]

theorem process_of_ne_processing {s : State} (hd : s.server.dispState ≠ .processing) : process s = .next s :=
  if_neg hd

/-- An empty inbox leaves the turn to `Process` (log entry 2). -/
theorem step_of_inbox_nil {s : State} (h : s.inbox = []) : step s = process s := by
  rw [step, nextEvent, h]

theorem step_of_inbox_cons {s : State} {e : Event} {rest : List Event} (h : s.inbox = e :: rest) :
    step s = handleEvent e { s with inbox := rest } := by
  rw [step, nextEvent, h]

/-- Settles O7: a step handles the next event or runs `Process`, which executes what it decodes. -/
theorem stepRunsDecodedRequest : Obligations.StepRunsDecodedRequest := by
  refine ⟨fun s i hd hi hin => ?_, fun s i rest hd hi hin => ?_, fun s e rest hin => ?_, fun s hin hd => ?_⟩
  · exact (step_of_inbox_nil hin).trans (process_of_decode hd hi)
  · exact (step_of_inbox_cons hin).trans (process_of_decode (s := { s with inbox := rest }) hd hi)
  · exact step_of_inbox_cons hin
  · exact (step_of_inbox_nil hin).trans (process_of_ne_processing hd)

theorem handleEvent_txReady_no_effect {s : State}
    (h : ¬ (s.server.dispState = .responding ∧ s.server.txPos < s.server.txLen)) :
    handleEvent .txReady s = .next s :=
  if_neg h

theorem handleEvent_txDrained_no_effect {s : State}
    (h : ¬ (s.server.dispState = .responding ∧ s.server.txPos = s.server.txLen)) :
    handleEvent .txDrained s = .next s := by
  rw [handleEvent, Server.transmitDrained, if_neg h]

/-- Without the channel no event but the host's has an effect (R134, R201). -/
theorem handleEvent_off_channel {s : State} (hd : s.server.dispState = .idle ∨ s.server.dispState = .stopped)
    {e : Event} (he : e.isHost = false) : handleEvent e s = .next s := by
  have hproc : s.server.dispState ≠ .processing := by rcases hd with hd | hd <;> simp [hd]
  have hresp : s.server.dispState ≠ .responding := by rcases hd with hd | hd <;> simp [hd]
  cases e with
  | rxByte b => rcases hd with hd | hd <;> simp [handleEvent, receiveByte, hd]
  | silence => rcases hd with hd | hd <;> simp [handleEvent, Server.silence, hd]
  | tick => rcases hd with hd | hd <;> simp [handleEvent, Server.tick, Server.ownsChannel, hd]
  | txReady => exact handleEvent_txReady_no_effect fun h => hresp h.1
  | txDrained => exact handleEvent_txDrained_no_effect fun h => hresp h.1
  | process => exact process_of_ne_processing hproc
  | host op => cases he

/-- Settles O48: each event is without effect outside the states whose work it is. -/
theorem otherEventsHaveNoEffect : Obligations.OtherEventsHaveNoEffect := by
  intro s
  refine ⟨fun hd e he => handleEvent_off_channel hd he, fun hd => ?_, fun hd => ?_,
    fun hd => ⟨?_, fun hp => ?_, fun hp => ?_⟩⟩
  · simp only [List.forall_mem_cons]
    exact ⟨process_of_ne_processing (by simp [hd]), handleEvent_txReady_no_effect (by simp [hd]),
      handleEvent_txDrained_no_effect (by simp [hd]), nofun⟩
  · simp only [List.forall_mem_cons]
    exact ⟨handleEvent_txReady_no_effect (by simp [hd]), handleEvent_txDrained_no_effect (by simp [hd]), nofun⟩
  · exact process_of_ne_processing (by simp [hd])
  · exact handleEvent_txReady_no_effect fun h => h.2.ne hp
  · exact handleEvent_txDrained_no_effect fun h => hp.ne h.2

/-- Settles O49: the one case in which a byte is left to emit, and the others. -/
theorem txReadyEmitsTheNextByte : Obligations.TxReadyEmitsTheNextByte := by
  refine fun s => ⟨fun b hd hp hb => ?_, fun h => handleEvent_txReady_no_effect ?_⟩
  · rw [handleEvent, transmitByte, if_pos ⟨hd, hp⟩, hb]
  · rintro ⟨hd, hp⟩
    exact h.elim (· hd) hp.ne

theorem handleEvent_txDrained {s : State} (hd : s.server.dispState = .responding)
    (hp : s.server.txPos = s.server.txLen) :
    handleEvent .txDrained s = .next { s with server := s.server.resume } := by
  rw [handleEvent, Server.transmitDrained, if_pos ⟨hd, hp⟩]

/-- Settles O50: the return when the whole response has left, and the cases in which it has not. -/
theorem txDrainedReturnsToAwaiting : Obligations.TxDrainedReturnsToAwaiting := by
  refine fun s => ⟨handleEvent_txDrained, fun h => handleEvent_txDrained_no_effect ?_⟩
  rintro ⟨hd, hp⟩
  exact h.elim (· hd) fun hlt => hlt.ne hp

end Sys2Proof.Machine
end

section
/-! SUPPORT. What the current Slave alone decides of an instruction: the response and the Slave it leaves (R202, R205,
R285). -/

namespace Sys2Proof.Machine

/-- The response to a request and the Slave it leaves, from the test of its count, its work on the current Slave and
`internal_error`, in the order of R264. -/
def served (fc : Byte) (legal failure : Bool) (result : Option (List Byte × Slave)) (sl : Slave) :
    List Byte × Slave :=
  if legal then
    match result with
    | none => (exceptionPdu fc .illegalDataAddress, sl)
    | some r => if failure then (exceptionPdu fc .slaveDeviceFailure, sl) else r
  else (exceptionPdu fc .illegalDataValue, sl)

/-- The state after a request: the Slave it left in the place of the current one, its response loaded (R204). -/
def State.answered (s : State) (r : List Byte × Slave) : State :=
  { s with server := (s.server.storeSlave r.2).load r.2.addr r.1 }

theorem respond_answered {s : State} {sl : Slave} (hs : s.server.currentSlave = some sl) (r : List Byte × Slave) :
    respond r.1 { s with server := s.server.storeSlave r.2 } = .next (s.answered r) :=
  respond_eq r.1 (Server.currentSlave_storeSlave hs)

/-- A response that stores nothing is an answer that leaves the Slave as it was. -/
theorem respond_eq_answered {s : State} {sl : Slave} (hs : s.server.currentSlave = some sl) (pdu : List Byte) :
    respond pdu s = .next (s.answered (pdu, sl)) := by
  rw [respond_eq pdu hs, State.answered, Server.storeSlave_self hs]

theorem serveRequest_eq_answered {s : State} {sl : Slave} (hs : s.server.currentSlave = some sl) (fc : Byte)
    (legal failure : Bool) (work : Slave → Option (List Byte × Slave)) :
    serveRequest fc legal failure work s = .next (s.answered (served fc legal failure (work sl) sl)) := by
  cases legal with
  | false => exact (serveRequest_illegal hs rfl).trans (respond_eq_answered hs _)
  | true =>
    cases hw : work sl with
    | none => exact (serveRequest_uncovered hs rfl hw).trans (respond_eq_answered hs _)
    | some r =>
      cases failure with
      | true => exact (serveRequest_failure hs rfl rfl hw).trans (respond_eq_answered hs _)
      | false => exact (serveRequest_success hs rfl rfl hw).trans (respond_answered hs r)

/-- A request answers every machine with the same current Slave alike (R205). -/
theorem exec_request_eq_answered {i : Instr} (hi : i.isRequest = true) (sl : Slave) :
    ∃ r, ∀ s : State, s.server.currentSlave = some sl → exec i s = .next (s.answered r) := by
  cases i with
  | rdCoils addr count => exact ⟨_, fun _ hs => serveRequest_eq_answered hs _ _ _ _⟩
  | rdDiscrete addr count => exact ⟨_, fun _ hs => serveRequest_eq_answered hs _ _ _ _⟩
  | rdHolding addr count => exact ⟨_, fun _ hs => serveRequest_eq_answered hs _ _ _ _⟩
  | rdInput addr count => exact ⟨_, fun _ hs => serveRequest_eq_answered hs _ _ _ _⟩
  | wrSingle addr value => exact ⟨_, fun _ hs => serveRequest_eq_answered hs _ _ _ _⟩
  | wrMulti addr vals => exact ⟨_, fun _ hs => serveRequest_eq_answered hs _ _ _ _⟩
  | unsupported fc payload => exact ⟨_, fun _ hs => respond_eq_answered hs _⟩
  | rspRdCoils data => cases hi
  | rspRdDiscrete data => cases hi
  | rspRdHolding vals => cases hi
  | rspRdInput vals => cases hi
  | rspWrSingle addr value => cases hi
  | rspWrMulti addr count => cases hi
  | rspException fc code => cases hi

/-- An instruction that is carried out once answers every machine with the same current Slave alike. -/
theorem exec_eq_answered_of_next {i : Instr} {s s' : State} (sl : Slave) (h : exec i s = .next s') :
    ∃ r, ∀ t : State, t.server.currentSlave = some sl → exec i t = .next (t.answered r) := by
  cases hi : i.isRequest with
  | true => exact exec_request_eq_answered hi sl
  | false =>
    rw [exec_response hi] at h
    cases hwf : i.wellFormed with
    | false =>
      rw [sendResponse_refused s hwf] at h
      cases h
    | true =>
      refine ⟨(encode i, sl), fun t ht => ?_⟩
      rw [exec_response hi, sendResponse_eq t hwf, respond_eq_answered ht]

/-- The same answer in two machines that look the same to the current Slave leaves them looking the same. -/
theorem SameForCurrent.answered {s t : State} {sl : Slave} (h : SameForCurrent s t)
    (hs : s.server.currentSlave = some sl) (r : List Byte × Slave) :
    SameForCurrent (s.answered r) (t.answered r) where
  current := (Server.currentSlave_storeSlave (sl' := r.2) hs).trans
    (Server.currentSlave_storeSlave (h.current ▸ hs)).symm
  others := congrArg (Server.load · r.2.addr r.1) h.others
  inbox := h.inbox
  wire := h.wire
  replies := h.replies

/-- Settles O38: the current Slave decides the answer, which is put in its own place. -/
theorem otherSlavesAreIsolated : Obligations.OtherSlavesAreIsolated := by
  intro i s t s' hst h
  obtain ⟨sl, -, -, hcur, -, -⟩ := exec_executed h
  obtain ⟨r, hr⟩ := exec_eq_answered_of_next sl h
  obtain rfl : s.answered r = s' := by
    have hnext := (hr s hcur).symm.trans h
    injection hnext
  exact ⟨_, hr t (hst.current ▸ hcur), hst.answered hcur r, fun k hk => List.getElem?_set_ne hk.symm⟩

end Sys2Proof.Machine
end

section
/-! SUPPORT. `execute` on the bytes of a PDU, against what the decoder reads from them and the machine answers (R110,
R204, R205). -/

namespace Sys2Proof.Machine

/-! ## A PDU the decoder refuses -/

theorem decodeTwoWords_error {mk : Word → Word → Instr} {q : List Byte} {e : DecodeError}
    (h : decodeTwoWords mk q = .error e) : e = .payloadLength := by
  unfold decodeTwoWords at h
  split at h
  · cases h
  · injection h with h
    exact h.symm

theorem decodeWrMulti_error {q : List Byte} {e : DecodeError} (h : decodeWrMulti q = .error e) :
    e = .payloadLength := by
  unfold decodeWrMulti at h
  split at h
  · split at h
    · cases h
    · injection h with h
      exact h.symm
  · injection h with h
    exact h.symm

/-- The one way a PDU of a function code fails to decode: the code is one of the six and the length or the byte count
is not what it implies (R110). -/
theorem decode_cons_error {fc : Byte} {q : List Byte} {e : DecodeError} (h : decode (fc :: q) = .error e) :
    supportedFc fc = true ∧ e = .payloadLength := by
  cases hs : supportedFc fc with
  | false =>
    rw [decode_unsupported hs] at h
    cases h
  | true =>
    refine ⟨rfl, ?_⟩
    obtain rfl | rfl | rfl | rfl | rfl | rfl := (supportedFc_iff fc).1 hs
    · exact decodeTwoWords_error h
    · exact decodeTwoWords_error h
    · exact decodeTwoWords_error h
    · exact decodeTwoWords_error h
    · exact decodeTwoWords_error h
    · exact decodeWrMulti_error h

/-- In `Processing` a PDU that does not decode is answered with IllegalDataValue (R110, R205). -/
theorem process_of_payloadLength {s : State} (hd : s.server.dispState = .processing)
    (h : decode (pduOf s.server.frame) = .error .payloadLength) :
    process s = raiseException ((pduOf s.server.frame).getD 0 0) .illegalDataValue s := by
  rw [process, if_pos hd, h]

/-! ## `execute`, check by check -/

theorem execute_unsupported (sl : Slave) {fc : Byte} (hs : supportedFc fc = false) (q : List Byte) :
    execute sl (fc :: q) = (exceptionPdu fc .illegalFunction, sl) :=
  if_pos hs

theorem execute_illegal (sl : Slave) {fc : Byte} {q : List Byte} (hs : supportedFc fc = true)
    (hl : pduLegal (fc :: q) = false) : execute sl (fc :: q) = (exceptionPdu fc .illegalDataValue, sl) :=
  (if_neg (by simp [hs])).trans (if_pos hl)

theorem execute_of_decode_error (sl : Slave) {fc : Byte} {q : List Byte} {e : DecodeError}
    (h : decode (fc :: q) = .error e) : execute sl (fc :: q) = (exceptionPdu fc .illegalDataValue, sl) := by
  obtain ⟨hs, -⟩ := decode_cons_error h
  have hl : ¬ pduLegal (fc :: q) = true := by
    rw [← decoderAcceptsExactlyLegalPdus (fc :: q) hs (List.cons_ne_nil _ _), h]
    simp
  exact execute_illegal sl hs (by simpa using hl)

/-- No request changes a Slave's address (R83). -/
theorem execute_addr (sl : Slave) (p : List Byte) : (execute sl p).2.addr = sl.addr := by
  simp only [execute]
  split_ifs <;> rfl

/-! ## `execute` on the bytes of a request -/

/-- A read of a legal count: the values where the range is covered, IllegalDataAddress elsewhere (R70, R72). -/
theorem served_memRead {α : Type} (fc : Byte) (sl : Slave) (cat : Category) (init : α) (m : Memory α) (a n : Nat)
    (rsp : List α → List Byte) :
    served fc true false ((sl.memRead cat init m a n).map fun v => (rsp v, sl)) sl =
      if sl.coversRange cat a n then (rsp (Memory.readSeq init m a n), sl)
      else (exceptionPdu fc .illegalDataAddress, sl) := by
  cases hc : sl.coversRange cat a n with
  | true => rw [Slave.memRead_eq_some hc]; rfl
  | false => rw [Slave.memRead_eq_none hc]; rfl

/-- A write of a legal number of values: all stored where the range is covered, none elsewhere (R71, R72). -/
theorem served_writeHoldings (fc : Byte) (sl : Slave) (a : Nat) (vals : List Word) (rsp : List Byte) :
    served fc true false ((sl.writeHoldings a vals).map fun sl' => (rsp, sl')) sl =
      if sl.coversRange .holdingRegister a vals.length then
        (rsp, { sl with holdings := Memory.writeSeq Config.initReg sl.holdings a vals })
      else (exceptionPdu fc .illegalDataAddress, sl) := by
  cases hc : sl.coversRange .holdingRegister a vals.length with
  | true => rw [Slave.writeHoldings_eq_some hc]; rfl
  | false => rw [Slave.writeHoldings_eq_none hc]; rfl

section
variable (sl : Slave) (addr : Word)

theorem execute_rdCoils {count : Word} (hl : pduLegal (encode (.rdCoils addr count)) = true) :
    execute sl (encode (.rdCoils addr count)) = served 0x01 true false
      ((sl.readCoils addr.toNat count.toNat).map fun v => (encode (.rspRdCoils (packBits v)), sl)) sl := by
  rw [Slave.readCoils, served_memRead]
  simp only [execute, hl]
  simp [encode, encodeTwoWords, encodeCounted, supportedFc, exceptionPdu, ExceptionCode.number]

theorem execute_rdDiscrete {count : Word} (hl : pduLegal (encode (.rdDiscrete addr count)) = true) :
    execute sl (encode (.rdDiscrete addr count)) = served 0x02 true false
      ((sl.readDiscretes addr.toNat count.toNat).map fun v => (encode (.rspRdDiscrete (packBits v)), sl)) sl := by
  rw [Slave.readDiscretes, served_memRead]
  simp only [execute, hl]
  simp [encode, encodeTwoWords, encodeCounted, supportedFc, exceptionPdu, ExceptionCode.number]

theorem execute_rdHolding {count : Word} (hl : pduLegal (encode (.rdHolding addr count)) = true) :
    execute sl (encode (.rdHolding addr count)) = served 0x03 true false
      ((sl.readHoldings addr.toNat count.toNat).map fun v => (encode (.rspRdHolding v), sl)) sl := by
  rw [Slave.readHoldings, served_memRead]
  simp only [execute, hl]
  simp [encode, encodeTwoWords, encodeCounted, supportedFc, exceptionPdu, ExceptionCode.number]

theorem execute_rdInput {count : Word} (hl : pduLegal (encode (.rdInput addr count)) = true) :
    execute sl (encode (.rdInput addr count)) = served 0x04 true false
      ((sl.readInputs addr.toNat count.toNat).map fun v => (encode (.rspRdInput v), sl)) sl := by
  rw [Slave.readInputs, served_memRead]
  simp only [execute, hl]
  simp [encode, encodeTwoWords, encodeCounted, supportedFc, exceptionPdu, ExceptionCode.number]

theorem execute_wrSingle {value : Word} (hl : pduLegal (encode (.wrSingle addr value)) = true) :
    execute sl (encode (.wrSingle addr value)) = served 0x06 true false
      ((sl.writeHoldings addr.toNat [value]).map fun sl' => (encode (.rspWrSingle addr value), sl')) sl := by
  rw [served_writeHoldings]
  simp only [execute, hl]
  simp [encode, encodeTwoWords, supportedFc, exceptionPdu, ExceptionCode.number, Memory.writeSeq]

theorem execute_wrMulti {vals : List Word} (hle : vals.length ≤ 127)
    (hl : pduLegal (encode (.wrMulti addr vals)) = true) :
    execute sl (encode (.wrMulti addr vals)) = served 0x10 true false
      ((sl.writeHoldings addr.toNat vals).map fun sl' =>
        (encode (.rspWrMulti addr (BitVec.ofNat 16 vals.length)), sl')) sl := by
  have hcount := (wrMulti_counts_toNat hle).1
  rw [served_writeHoldings]
  simp only [execute, hl]
  simp [encode, encodeWrMulti, encodeTwoWords, supportedFc, exceptionPdu, ExceptionCode.number,
    -BitVec.toNat_ofNat, hcount]

end

/-- The course of a request the decoder reads is the one of its bytes: the limits on its count are the checks of R110,
and a legal one is left to show. -/
theorem execute_eq_served {i : Instr} {sl : Slave} {fc : Byte} {q : List Byte} {result : Option (List Byte × Slave)}
    (hs : supportedFc fc = true) (hd : decode (fc :: q) = .ok i)
    (hlegal : pduLegal (fc :: q) = true → execute sl (fc :: q) = served fc true false result sl) :
    execute sl (fc :: q) = served fc i.wellFormed false result sl := by
  have hl : pduLegal (fc :: q) = i.wellFormed := by
    rw [Bool.eq_iff_iff, ← decoderAcceptsExactlyLegalPdus (fc :: q) hs (List.cons_ne_nil _ _), hd]
    simp
  cases hwf : i.wellFormed with
  | true => exact hlegal (hl.trans hwf)
  | false => exact execute_illegal sl hs (hl.trans hwf)

/-- A request answers with what `execute` gives on its bytes (R205). -/
theorem exec_eq_answered_execute {i : Instr} {s : State} {sl : Slave} {fc : Byte} {q : List Byte}
    (hd : decode (fc :: q) = .ok i) (hs : s.server.currentSlave = some sl) :
    exec i s = .next (s.answered (execute sl (fc :: q))) := by
  cases hsup : supportedFc fc with
  | false =>
    obtain rfl : .unsupported fc q = i := Except.ok.inj ((decode_unsupported hsup q).symm.trans hd)
    rw [execute_unsupported sl hsup]
    exact respond_eq_answered hs _
  | true =>
    obtain rfl | rfl | rfl | rfl | rfl | rfl := (supportedFc_iff fc).1 hsup
    · obtain ⟨addr, count, rfl, rfl⟩ := decodeTwoWords_eq_ok_iff.1 hd
      rw [execute_eq_served hsup hd (execute_rdCoils sl addr)]
      exact serveRequest_eq_answered hs _ _ _ _
    · obtain ⟨addr, count, rfl, rfl⟩ := decodeTwoWords_eq_ok_iff.1 hd
      rw [execute_eq_served hsup hd (execute_rdDiscrete sl addr)]
      exact serveRequest_eq_answered hs _ _ _ _
    · obtain ⟨addr, count, rfl, rfl⟩ := decodeTwoWords_eq_ok_iff.1 hd
      rw [execute_eq_served hsup hd (execute_rdHolding sl addr)]
      exact serveRequest_eq_answered hs _ _ _ _
    · obtain ⟨addr, count, rfl, rfl⟩ := decodeTwoWords_eq_ok_iff.1 hd
      rw [execute_eq_served hsup hd (execute_rdInput sl addr)]
      exact serveRequest_eq_answered hs _ _ _ _
    · obtain ⟨addr, value, rfl, rfl⟩ := decodeTwoWords_eq_ok_iff.1 hd
      rw [execute_eq_served hsup hd (execute_wrSingle sl addr)]
      exact serveRequest_eq_answered hs _ _ _ _
    · obtain ⟨addr, vals, hle, he, rfl⟩ := decodeWrMulti_eq_ok_iff.1 hd
      rw [execute_eq_served hsup hd (by rw [← he]; exact execute_wrMulti sl addr hle)]
      exact serveRequest_eq_answered hs _ _ _ _

/-- The Process step leaves what `execute` gives on the PDU of the frame. -/
theorem process_eq_answered {s : State} {sl : Slave} (hd : s.server.dispState = .processing)
    (hs : s.server.currentSlave = some sl) (hne : pduOf s.server.frame ≠ []) :
    process s = .next (s.answered (execute sl (pduOf s.server.frame))) := by
  obtain ⟨fc, q, hp⟩ := List.exists_cons_of_ne_nil hne
  cases hdec : decode (fc :: q) with
  | ok i =>
    rw [process_of_decode hd (hp ▸ hdec), hp]
    exact exec_eq_answered_execute hdec hs
  | error e =>
    obtain ⟨-, rfl⟩ := decode_cons_error hdec
    rw [process_of_payloadLength hd (hp ▸ hdec), hp, execute_of_decode_error sl hdec]
    exact respond_eq_answered hs _

theorem process_answers {s : State} {sl : Slave} {p : List Byte} (hd : s.server.dispState = .processing)
    (hs : s.server.currentSlave = some sl) (hp : pduOf s.server.frame = p) (hne : p ≠ []) :
    ∃ t, process s = .next t ∧ Answers s t sl.addr (execute sl p).1 ∧
      t.server.slaves = s.server.slaves.set s.server.curSlave (execute sl p).2 := by
  subst hp
  refine ⟨_, process_eq_answered hd hs hne, ?_, rfl⟩
  rw [← execute_addr sl (pduOf s.server.frame)]
  exact answers_load _ _ (.inr ⟨_, rfl⟩)

/-- Settles O39: the state that the Process step leaves answers with the response and holds the Slave of `execute`. -/
theorem processComputesExecute : Obligations.ProcessComputesExecute :=
  fun _ _ hd hs hne => process_answers hd hs rfl hne

end Sys2Proof.Machine
end

section
/-! SUPPORT. A frame on the bus from its first byte to the last byte of its response, step by step (R211). -/

namespace Sys2Proof.Machine

/-- The bytes of a frame and a silence, taken by a Framer at rest: the frame stands in the receive buffer and is
completed (R131, R135). -/
theorem runSteps_receive_frame {s : State} {f : List Byte} {rest : List Event} (hinv : s.Inv)
    (hd : s.server.dispState = .awaitingRequest) (hl : s.server.rxLen = 0) (hr : s.server.resync = false)
    (hpos : 1 ≤ f.length) (hmax : f.length < Config.maxFrame)
    (hi : s.inbox = f.map Event.rxByte ++ Event.silence :: rest) :
    ∃ v buf gap, v = { s.server with rxBuf := buf, rxLen := f.length, gapTimer := gap, resync := false } ∧
      v.frame = f ∧ runSteps (f.length + 1) s = .next { s with inbox := rest, server := v.completeFrame } := by
  obtain ⟨buf, gap, hrun, -, hbuf⟩ := runSteps_receive f _ s hi hd hr hinv.rxBufSize (by omega)
  simp only [hl, Nat.zero_add, Server.frame, List.take_zero, List.nil_append] at hrun hbuf
  refine ⟨_, buf, gap, rfl, hbuf, ?_⟩
  rw [runSteps_add _ 1 hrun]
  exact runSteps_one rfl ((silenceCompletesTheFrame _).2.1 hd hpos)

/-- A frame that fails one of the Validator's tests only empties the receive buffer (R142). -/
theorem Server.completeFrame_of_invalid {v : Server} {f : List Byte} (hf : v.frame = f)
    (h : f.length < 4 ∨ crcOk f = false ∨ ∀ sl ∈ v.slaves, f[0]? ≠ some sl.addr) :
    v.completeFrame = { v with rxLen := 0 } := by
  subst hf
  obtain hdrop | ⟨k, sl, hk, hmin, hcrc, haddr, -⟩ := v.completeFrame_cases
  · exact hdrop
  · rcases h with hshort | hbad | hnone
    · exact absurd hmin hshort.not_ge
    · simp [hbad] at hcrc
    · exact absurd haddr (hnone sl (List.mem_of_getElem? hk))

/-- A valid frame is accepted for the Slave of its address (R142, R202). -/
theorem Server.completeFrame_of_valid {v : Server} {f : List Byte} {k : Nat} {sl : Slave} (hf : v.frame = f)
    (hmin : 4 ≤ f.length) (hcrc : crcOk f = true) (hd : v.slaves.Pairwise fun a b => a.addr ≠ b.addr)
    (hk : v.slaves[k]? = some sl) (haddr : f[0]? = some sl.addr) :
    v.completeFrame = { v with curSlave := k, dispState := .processing } := by
  subst hf
  obtain ⟨-, -, -, haccept⟩ := frameCompletionChecksInOrder v
  exact (haccept k sl hmin hcrc hd hk haddr).2

/-- Settles O41: the frame is received, fails a test and leaves an empty buffer. -/
theorem serveDropsInvalidFrames : Obligations.ServeDropsInvalidFrames := by
  intro s f rest hinv hd hl hr hpos hmax hbad hi
  obtain ⟨v, buf, gap, rfl, hf, hrun⟩ := runSteps_receive_frame hinv hd hl hr hpos hmax hi
  rw [Server.completeFrame_of_invalid hf hbad] at hrun
  exact ⟨_, hrun, rfl, rfl, hd, rfl, rfl, rfl, rfl⟩

/-- An answer leaves byte by byte, and the machine returns to reception (R207, R208). -/
theorem Answers.runSteps_send {s t : State} {addr : Byte} {pdu : List Byte} {rest : List Event}
    (h : Answers s t addr pdu)
    (hi : t.inbox = List.replicate (pdu.length + 3) Event.txReady ++ Event.txDrained :: rest) :
    runSteps (pdu.length + 3 + 1) t = .next { t with
      inbox := rest
      wire := t.wire ++ (addr :: pdu ++ crcBytes (addr :: pdu))
      server := t.server.resume } := by
  have hframe : (t.server.txBuf.take t.server.txLen).length = t.server.txLen := by
    rw [h.frame, h.txLen]
    simp
  have hlen : t.server.txLen ≤ t.server.txBuf.length := by
    rwa [List.length_take, min_eq_left_iff] at hframe
  have hemit := runSteps_transmit _ _ t hi h.dispState (by rw [h.txPos, h.txLen, Nat.zero_add]) hlen
  rw [h.txPos, List.drop_zero, h.frame] at hemit
  rw [runSteps_add _ 1 hemit]
  exact runSteps_one rfl (handleEvent_txDrained h.dispState rfl)

/-- Settles O40: the frame is received and accepted, `Process` answers as `execute` says, and the answer leaves. -/
theorem serveAnswersValidFrames : Obligations.ServeAnswersValidFrames := by
  intro s f k sl rest hinv hd hl hr hmin hmax hcrc hk haddr hi
  have hlength : (serveEvents f ((execute sl (pduOf f)).1.length + 3)).length =
      f.length + 1 + (1 + ((execute sl (pduOf f)).1.length + 3 + 1)) := by
    simp only [serveEvents, List.length_append, List.length_map, List.length_replicate, List.length_cons,
      List.length_nil]
    omega
  rw [hlength]
  simp only [serveEvents, List.append_assoc, List.cons_append, List.nil_append] at hi
  obtain ⟨v, buf, gap, rfl, hf, hrun⟩ := runSteps_receive_frame hinv hd hl hr (by omega) hmax hi
  rw [Server.completeFrame_of_valid hf hmin hcrc hinv.addrsDistinct hk haddr] at hrun
  have hne : pduOf f ≠ [] := by
    rw [← List.length_pos_iff, pduOf, List.length_drop, List.length_take]
    omega
  obtain ⟨t, hproc, hans, hslaves⟩ := process_answers
    (s := { s with
      inbox := List.replicate ((execute sl (pduOf f)).1.length + 3) Event.txReady ++ Event.txDrained :: rest
      server := { s.server with
        rxBuf := buf, rxLen := f.length, gapTimer := gap, resync := false, curSlave := k
        dispState := .processing } })
    rfl hk (congrArg pduOf hf) hne
  refine ⟨_, (runSteps_add _ _ hrun).trans ((runSteps_add 1 _ ?_).trans (hans.runSteps_send hans.inbox)),
    congrArg (· ++ _) hans.wire, hslaves, rfl, hans.rxLen, hans.resync, rfl, rfl, rfl, hans.replies⟩
  exact runSteps_one rfl hproc

end Sys2Proof.Machine
end

section
/-! SUPPORT. The calls that open and close the Server's service, what a wrong state makes of the host's calls, and new
Slaves (R231, R234, R235, R237). -/

namespace Sys2Proof.Machine

/-- Settles O52: the two guards of `start`. -/
theorem startEntersService : Obligations.StartEntersService := by
  intro v
  refine ⟨fun hd => ?_, fun hd => ?_, fun hd _ => if_pos hd⟩ <;> simp [Server.hostOp, Server.start, hd]

theorem Server.stop_of_ownsChannel {v : Server} (h : v.ownsChannel = true) :
    v.stop = ({ v with rxLen := 0, txLen := 0, txPos := 0, resync := false, dispState := .stopped }, .ok) :=
  if_pos h

theorem Server.stop_of_not_ownsChannel {v : Server} (h : ¬ v.ownsChannel = true) :
    v.stop = (v, .failed .preconditionViolation) :=
  if_neg h

/-- Settles O53: the channel is owned in exactly the three running states. -/
theorem stopAbandonsTheRequest : Obligations.StopAbandonsTheRequest := by
  refine fun v => ⟨fun hd => Server.stop_of_ownsChannel (v.ownsChannel_iff.2 hd), fun hd => ?_⟩
  refine Server.stop_of_not_ownsChannel fun hown => ?_
  obtain ⟨hidle, hstopped⟩ := Server.ownsChannel_ne hown
  exact hd.elim hidle hstopped

/-- Settles O57: each configuration call tests the state first. -/
theorem configurationOnlyInIdle : Obligations.ConfigurationOnlyInIdle :=
  fun _ hd => ⟨fun _ => if_pos hd, fun _ _ _ _ _ => if_pos hd, fun _ _ _ _ => if_pos hd⟩

theorem Server.slaveIndex_isSome_iff (v : Server) (address : Nat) :
    (v.slaveIndex address).isSome ↔ ∃ sl ∈ v.slaves, sl.addr.toNat = address := by
  simp [Server.slaveIndex]

theorem Server.addSlave_of_unused {v : Server} {address : Int} (hd : v.dispState = .idle) (hlo : 1 ≤ address)
    (hhi : address ≤ 247) (hnew : ∀ sl ∈ v.slaves, (sl.addr.toNat : Int) ≠ address) :
    v.addSlave address = ({ v with slaves := v.slaves ++ [Slave.created (BitVec.ofNat 8 address.toNat)] }, .ok) := by
  have hok : ¬ (address < Config.addrMin ∨ Config.addrMax < address ∨ (v.slaveIndex address.toNat).isSome) := by
    rw [Server.slaveIndex_isSome_iff, Config.addrMin, Config.addrMax]
    rintro (hlt | hgt | ⟨sl, hsl, hused⟩)
    · omega
    · omega
    · exact hnew sl hsl (by omega)
  rw [Server.addSlave, if_neg (not_not.2 hd), if_neg hok]

theorem Server.addSlave_configError {v : Server} {address : Int} (hd : v.dispState = .idle)
    (h : address < 1 ∨ 247 < address ∨ ∃ sl ∈ v.slaves, (sl.addr.toNat : Int) = address) :
    v.addSlave address = (v, .failed .configError) := by
  have hbad : address < Config.addrMin ∨ Config.addrMax < address ∨ (v.slaveIndex address.toNat).isSome := by
    rw [Server.slaveIndex_isSome_iff]
    exact h.imp_right (Or.imp_right fun ⟨sl, hsl, hused⟩ => ⟨sl, hsl, by omega⟩)
  rw [Server.addSlave, if_neg (not_not.2 hd), if_pos hbad]

/-- Settles O54: an address the tests accept fits the byte the new Slave holds. -/
theorem addSlaveAppends : Obligations.AddSlaveAppends := by
  refine fun v address hd => ⟨fun hlo hhi hnew => ?_, Server.addSlave_configError hd⟩
  have haddr : ((Slave.created (BitVec.ofNat 8 address.toNat)).addr.toNat : Int) = address := by
    simp only [Slave.created, BitVec.toNat_ofNat]
    omega
  exact ⟨_, Server.addSlave_of_unused hd hlo hhi hnew, haddr, rfl⟩

end Sys2Proof.Machine
end

section
/-! SUPPORT. Blocks found by their name, and what the host reads of a Slave (R21, R236, R238). -/

namespace Sys2Proof.Machine

theorem Slave.blockNamed_eq_none_iff (sl : Slave) (name : String) :
    sl.blockNamed name = none ↔ ∀ b ∈ sl.blocks, b.name ≠ name := by
  simp [Slave.blockNamed]

/-- With unique names, each block is the one found by its name. -/
theorem Slave.Inv.blockNamed_of_mem {sl : Slave} (h : sl.Inv) {b : Block} (hb : b ∈ sl.blocks) :
    sl.blockNamed b.name = some b := by
  cases hc : sl.blockNamed b.name with
  | none => exact absurd rfl ((sl.blockNamed_eq_none_iff b.name).1 hc b hb)
  | some c =>
    have hname : c.name = b.name := by simpa using List.find?_some hc
    have hnodup : (sl.blocks.map Block.name).Nodup := List.pairwise_map.2 h.namesUnique
    rw [List.inj_on_of_nodup_map hnodup (List.mem_of_find?_eq_some hc) hb hname]

section
variable {v : Server} {k slave : Nat} {sl : Slave} (hat : v.slaveAt slave = some (k, sl))
include hat

theorem Server.peek_of_coversAll {cat : Category} {a n : Nat} (h : sl.CoversAll cat a n) :
    v.peek slave cat a n = .values (sl.cells cat a n) := by
  simp [Server.peek, hat, (sl.coversRange_iff cat a n).2 h]

theorem Server.peek_of_not_coversAll {cat : Category} {a n : Nat} (h : ¬ sl.CoversAll cat a n) :
    v.peek slave cat a n = .failed .addressOutOfRange := by
  simp [Server.peek, hat, (sl.coversRange_eq_false cat a n).2 h]

theorem Server.getBlock_of_blockNamed {name : String} {b : Block} (h : sl.blockNamed name = some b) :
    v.getBlock slave name = .block b (sl.cells b.cat b.start b.length) := by
  simp [Server.getBlock, hat, h]

theorem Server.getBlock_configError {name : String} (h : sl.blockNamed name = none) :
    v.getBlock slave name = .failed .configError := by
  simp [Server.getBlock, hat, h]

end

/-- Settles O58: the Slave is found by its address, and its coverage or its block by that name gives the answer. -/
theorem introspectionOnlyReads : Obligations.IntrospectionOnlyReads := by
  intro v k sl hdist hk
  have hat := Server.slaveAt_of_distinct hdist hk
  exact ⟨fun _ _ _ h => congrArg (v, ·) (Server.peek_of_coversAll hat h),
    fun _ _ _ h => congrArg (v, ·) (Server.peek_of_not_coversAll hat h),
    fun b hb hi => congrArg (v, ·) (Server.getBlock_of_blockNamed hat (hi.blockNamed_of_mem hb)),
    fun name h => congrArg (v, ·) (Server.getBlock_configError hat ((sl.blockNamed_eq_none_iff name).2 h))⟩

end Sys2Proof.Machine
end

section
/-! SUPPORT. A new block: which one the table admits, and what clearing its range does to each cell (R40, R232). -/

namespace Sys2Proof.Machine

/-- Two blocks do not overlap when one category's ranges stand apart; touching is allowed (R232). -/
theorem Block.overlaps_eq_false_iff (b c : Block) :
    b.overlaps c = false ↔ (c.cat = b.cat → c.start + c.length ≤ b.start ∨ b.start + b.length ≤ c.start) := by
  simp only [Block.overlaps, Bool.and_eq_false_imp, decide_eq_true_eq, decide_eq_false_iff_not, eq_comm (a := b.cat)]
  exact imp_congr_right fun _ => by omega

theorem Slave.admits_iff (sl : Slave) (b : Block) :
    sl.admits b = true ↔ (1 ≤ b.length ∧ b.start + b.length ≤ 65536) ∧ (∀ c ∈ sl.blocks, c.name ≠ b.name) ∧
      ∀ c ∈ sl.blocks, c.cat = b.cat → c.start + c.length ≤ b.start ∨ b.start + b.length ≤ c.start := by
  simp only [Slave.admits, Bool.and_eq_true, decide_eq_true_eq, Option.isNone_iff_eq_none,
    Slave.blockNamed_eq_none_iff, Bool.not_eq_true', List.any_eq_false, Bool.not_eq_true,
    Block.overlaps_eq_false_iff, and_assoc]

/-- One value of a space, as a sequence. -/
@[simp] theorem Memory.readSeq_one {α : Type} (init : α) (m : Memory α) (a : Nat) :
    Memory.readSeq init m a 1 = [Memory.read init m a] := rfl

theorem Slave.clearCells_cells (sl : Slave) (cat : Category) (start length x : Nat) :
    (sl.clearCells cat start length).cells cat x 1 =
      if start ≤ x ∧ x < start + length then initialCell cat else sl.cells cat x 1 := by
  cases cat <;> simp only [Slave.clearCells, Slave.cells, Memory.readSeq_one, Memory.read_clear] <;> split <;> rfl

theorem Slave.clearCells_cells_outside (sl : Slave) {cat c : Category} {start length x : Nat}
    (h : c ≠ cat ∨ x < start ∨ start + length ≤ x) :
    (sl.clearCells cat start length).cells c x 1 = sl.cells c x 1 := by
  by_cases hc : c = cat
  · subst hc
    have hx := h.resolve_left (absurd rfl)
    rw [Slave.clearCells_cells, if_neg (by omega)]
  · cases cat <;> cases c <;> trivial

/-- The block table is no cell. -/
theorem Slave.cells_setBlocks (sl : Slave) (blocks : List Block) (c : Category) (x n : Nat) :
    Slave.cells { sl with blocks := blocks } c x n = sl.cells c x n := rfl

section
variable {sl : Slave} {name : String} {cat : Category} {start length : Int}

/-- When the block of `add_block` may join the table, said of the call's own numbers. -/
theorem Slave.addBlock_guard_iff :
    (0 ≤ start ∧
        sl.admits { name := name, cat := cat, start := start.toNat, length := length.toNat } = true) ↔
      0 ≤ start ∧ 1 ≤ length ∧ start + length ≤ 65536 ∧ (∀ b ∈ sl.blocks, b.name ≠ name) ∧
        ∀ b ∈ sl.blocks, b.cat = cat → (b.start : Int) + b.length ≤ start ∨ start + length ≤ b.start := by
  simp only [Slave.admits_iff]
  constructor
  · rintro ⟨hs, ⟨hl, hb⟩, hname, hapart⟩
    exact ⟨hs, by omega, by omega, hname, fun b hmem hc => by have := hapart b hmem hc; omega⟩
  · rintro ⟨hs, hl, hb, hname, hapart⟩
    exact ⟨hs, ⟨by omega, by omega⟩, hname, fun b hmem hc => by have := hapart b hmem hc; omega⟩

theorem Slave.addBlock_of_legal (hname : ∀ b ∈ sl.blocks, b.name ≠ name) (hs : 0 ≤ start) (hl : 1 ≤ length)
    (hb : start + length ≤ 65536)
    (hapart : ∀ b ∈ sl.blocks, b.cat = cat → (b.start : Int) + b.length ≤ start ∨ start + length ≤ b.start) :
    sl.addBlock name cat start length = some { sl.clearCells cat start.toNat length.toNat with
      blocks := sl.blocks ++ [{ name := name, cat := cat, start := start.toNat, length := length.toNat }] } :=
  if_pos (Slave.addBlock_guard_iff.2 ⟨hs, hl, hb, hname, hapart⟩)

theorem Slave.addBlock_eq_none
    (hbad : (∃ b ∈ sl.blocks, b.name = name) ∨ start < 0 ∨ length < 1 ∨ 65536 < start + length ∨
      ∃ b ∈ sl.blocks, b.cat = cat ∧ (b.start : Int) < start + length ∧ start < b.start + b.length) :
    sl.addBlock name cat start length = none := by
  refine if_neg fun hguard => ?_
  obtain ⟨hs, hl, hb, hname, hapart⟩ := Slave.addBlock_guard_iff.1 hguard
  obtain ⟨b, hmem, hn⟩ | h | h | h | ⟨b, hmem, hc, h⟩ := hbad
  · exact hname b hmem hn
  · omega
  · omega
  · omega
  · have := hapart b hmem hc
    omega

end

theorem Server.addBlock_of_slaveAt {v : Server} {k slave : Nat} {sl : Slave} (hd : v.dispState = .idle)
    (hat : v.slaveAt slave = some (k, sl)) (name : String) (cat : Category) (start length : Int) :
    v.addBlock slave name cat start length =
      (sl.addBlock name cat start length).elim (v, .failed .configError)
        fun sl' => ({ v with slaves := v.slaves.set k sl' }, .ok) := by
  cases h : sl.addBlock name cat start length <;> simp [Server.addBlock, hd, hat, h]

/-- Settles O55: the block may join or not, and clearing its range is all that happens to the cells. -/
theorem addBlockAppends : Obligations.AddBlockAppends := by
  intro v k sl name cat start length hd hdist hk
  have hcall := Server.addBlock_of_slaveAt hd (Server.slaveAt_of_distinct hdist hk) name cat start length
  constructor
  · intro hname hs hl hb hapart
    rw [Slave.addBlock_of_legal hname hs hl hb hapart] at hcall
    refine ⟨_, hcall, sl.clearCells_addr _ _ _, rfl, fun x hlo hhi => ?_, fun c x hout => ?_⟩
    · rw [Slave.cells_setBlocks, Slave.clearCells_cells, if_pos (by omega)]
    · rw [Slave.cells_setBlocks, Slave.clearCells_cells_outside]
      exact hout.imp_right fun h => by omega
  · intro hbad
    rw [Slave.addBlock_eq_none hbad] at hcall
    exact hcall

end Sys2Proof.Machine
end

section
/-! SUPPORT. Values stored by the host: the domain of each category, and the cells a stored sequence leaves (R233). -/

namespace Sys2Proof.Machine

/-- `sl'` is `sl` with `vals` in the cells of the category from `a` on and no other cell changed (R233). -/
structure StoredCells (sl sl' : Slave) (cat : Category) (a : Nat) (vals : List Int) : Prop where
  inside : ∀ i, ∀ h : i < vals.length, cellOf cat vals[i] = some (sl'.cells cat (a + i) 1)
  outside : ∀ (c : Category) (x : Nat), c ≠ cat ∨ x < a ∨ a + vals.length ≤ x → sl'.cells c x 1 = sl.cells c x 1

/-- Bits are stored as the cells of their values. -/
theorem map_cellOf_of_toBits {vals : List Int} {vs : List Bool} (h : toBits vals = some vs) :
    vals.map (cellOf .coil) = vs.map fun b => some (.bits [b]) := by
  unfold toBits at h
  split at h
  · next hdom =>
    obtain rfl := Option.some.inj h
    simp only [List.all_eq_true, decide_eq_true_eq] at hdom
    rw [List.map_map]
    exact List.map_congr_left fun x hx => if_pos (hdom x hx)
  · cases h

/-- Words are stored as the cells of their values. -/
theorem map_cellOf_of_toWords {vals : List Int} {vs : List Word} (h : toWords vals = some vs) :
    vals.map (cellOf .holdingRegister) = vs.map fun w => some (.words [w]) := by
  unfold toWords at h
  split at h
  · next hdom =>
    obtain rfl := Option.some.inj h
    simp only [List.all_eq_true, decide_eq_true_eq] at hdom
    rw [List.map_map]
    refine List.map_congr_left fun x hx => (if_pos (hdom x hx)).trans ?_
    rw [Function.comp_apply, ← BitVec.ofInt_natCast, Int.toNat_of_nonneg (hdom x hx).1]
  · cases h

/-- A sequence written to the space that a category's cells are read from is stored in those cells. -/
theorem StoredCells.of_writeSeq {α : Type} [DecidableEq α] {init : α} {m : Memory α} {vs : List α}
    {box : α → CellValues} {sl sl' : Slave} {cat : Category} {a : Nat} {vals : List Int} (hwf : Memory.wf init m)
    (hmap : vals.map (cellOf cat) = vs.map fun w => some (box w))
    (hold : ∀ x, sl.cells cat x 1 = box (Memory.read init m x))
    (hnew : ∀ x, sl'.cells cat x 1 = box (Memory.read init (Memory.writeSeq init m a vs) x))
    (hother : ∀ c, c ≠ cat → ∀ x, sl'.cells c x 1 = sl.cells c x 1) : StoredCells sl sl' cat a vals := by
  have hlen : vals.length = vs.length := by simpa using congrArg List.length hmap
  refine ⟨fun i hi => ?_, fun c x hout => ?_⟩
  · have hcell : cellOf cat vals[i] = some (box vs[i]) := by
      simpa [hi, hlen ▸ hi] using congrArg (·[i]?) hmap
    rw [hcell, hnew, Memory.read_writeSeq _ _ _ _ hwf, dif_pos (by omega)]
    simp
  · by_cases hc : c = cat
    · subst hc
      have hx := hout.resolve_left (absurd rfl)
      rw [hnew, hold, Memory.read_writeSeq _ _ _ _ hwf, dif_neg (by omega)]
    · exact hother c hc x

theorem Slave.storeValues_cells_of_ne {sl sl' : Slave} {cat c : Category} {a : Nat} {vals : List Int}
    (h : sl.storeValues cat a vals = some sl') (hc : c ≠ cat) (x n : Nat) : sl'.cells c x n = sl.cells c x n := by
  cases cat <;> obtain ⟨vs, -, rfl⟩ := Option.map_eq_some_iff.1 h <;> cases c <;> trivial

theorem Slave.storeValues_stored {sl sl' : Slave} {cat : Category} {a : Nat} {vals : List Int} (hi : sl.Inv)
    (h : sl.storeValues cat a vals = some sl') : StoredCells sl sl' cat a vals := by
  have hother := fun c hc x => Slave.storeValues_cells_of_ne (c := c) h hc x 1
  cases cat <;> obtain ⟨vs, hvs, rfl⟩ := Option.map_eq_some_iff.1 h
  case coil => exact .of_writeSeq hi.coilsWf (map_cellOf_of_toBits hvs) (fun _ => rfl) (fun _ => rfl) hother
  case discreteInput =>
    exact .of_writeSeq hi.discretesWf (map_cellOf_of_toBits hvs) (fun _ => rfl) (fun _ => rfl) hother
  case inputRegister =>
    exact .of_writeSeq hi.inputsWf (map_cellOf_of_toWords hvs) (fun _ => rfl) (fun _ => rfl) hother
  case holdingRegister =>
    exact .of_writeSeq hi.holdingsWf (map_cellOf_of_toWords hvs) (fun _ => rfl) (fun _ => rfl) hother

theorem Slave.storeValues_isSome_iff (sl : Slave) (cat : Category) (a : Nat) (vals : List Int) :
    (sl.storeValues cat a vals).isSome ↔ ∀ x ∈ vals, (cellOf cat x).isSome := by
  cases cat <;> simp [Slave.storeValues, toBits, toWords, cellOf]

section
variable {sl : Slave} {name : String} {b : Block} {address : Int} {vals : List Int}

theorem Slave.setValues_of_inside (hn : sl.blockNamed name = some b) (hlo : (b.start : Int) ≤ address)
    (hhi : address + vals.length ≤ b.start + b.length) :
    sl.setValues name address vals = sl.storeValues b.cat address.toNat vals := by
  simp only [Slave.setValues, hn, if_pos (And.intro hlo hhi)]

theorem Slave.setValues_eq_none_of_unnamed (hn : sl.blockNamed name = none) :
    sl.setValues name address vals = none := by
  simp only [Slave.setValues, hn]

theorem Slave.setValues_eq_none_of_illegal (hn : sl.blockNamed name = some b)
    (hbad : address < b.start ∨ (b.start : Int) + b.length < address + vals.length ∨
      ∃ x ∈ vals, cellOf b.cat x = none) :
    sl.setValues name address vals = none := by
  by_cases hin : (b.start : Int) ≤ address ∧ address + vals.length ≤ b.start + b.length
  · rw [Slave.setValues_of_inside hn hin.1 hin.2, ← Option.not_isSome_iff_eq_none, Slave.storeValues_isSome_iff]
    obtain h | h | ⟨x, hx, hcell⟩ := hbad
    · omega
    · omega
    · exact fun hall => by simpa [hcell] using hall x hx
  · simp only [Slave.setValues, hn, if_neg hin]

end

theorem Server.setValues_of_slaveAt {v : Server} {k slave : Nat} {sl : Slave} (hd : v.dispState = .idle)
    (hat : v.slaveAt slave = some (k, sl)) (name : String) (address : Int) (vals : Values) :
    v.setValues slave name address vals =
      (sl.setValues name address vals.toList).elim (v, .failed .configError)
        fun sl' => ({ v with slaves := v.slaves.set k sl' }, .ok) := by
  cases h : sl.setValues name address vals.toList <;> simp [Server.setValues, hd, hat, h]

/-- Settles O56: the block is found by its name, and the values are stored in its category or refused together. -/
theorem setValuesStoresAll : Obligations.SetValuesStoresAll := by
  intro v k sl name address vals hd hdist hk hi
  have hcall := Server.setValues_of_slaveAt hd (Server.slaveAt_of_distinct hdist hk) name address (.sequence vals)
  rw [Values.toList] at hcall
  refine ⟨?_, fun hbad => ?_, fun _ => rfl⟩
  · rintro b hb rfl hlo hhi hdom
    obtain ⟨sl', hsl'⟩ := Option.isSome_iff_exists.1 ((sl.storeValues_isSome_iff b.cat address.toNat vals).2 hdom)
    obtain ⟨-, haddr, hblocks⟩ := Slave.storeValues_inv hsl'
    have hstored := Slave.storeValues_stored hi hsl'
    rw [Slave.setValues_of_inside (hi.blockNamed_of_mem hb) hlo hhi, hsl'] at hcall
    exact ⟨sl', hcall, haddr, hblocks, hstored.inside,
      fun c x hout => hstored.outside c x (hout.imp_right fun h => by omega)⟩
  · have hnone : sl.setValues name address vals = none := by
      obtain hunnamed | ⟨b, hb, rfl, hillegal⟩ := hbad
      · exact Slave.setValues_eq_none_of_unnamed ((sl.blockNamed_eq_none_iff name).2 hunnamed)
      · exact Slave.setValues_eq_none_of_illegal (hi.blockNamed_of_mem hb) hillegal
    rw [hnone] at hcall
    exact hcall

end Sys2Proof.Machine
end

section
/-! SUPPORT. An exception on its way out: its answer, which leaves the Store as it was (R262, R288). -/

namespace Sys2Proof.Machine

/-- Raising an exception is sending its two-byte PDU (R101, R262). -/
theorem raiseException_answers {s : State} {sl : Slave} (fc : Byte) (code : ExceptionCode)
    (hs : s.server.currentSlave = some sl) :
    ∃ t, raiseException fc code s = .next t ∧ Answers s t sl.addr [fc ||| 0x80, code.number] ∧
      t.server.slaves = s.server.slaves :=
  respond_answers (exceptionPdu fc code) hs

/-- Settles O31: the answer to a two-byte PDU is five bytes long. -/
theorem exceptionAnswersFiveBytes : Obligations.ExceptionAnswersFiveBytes := by
  intro fc code s sl hs
  obtain ⟨t, ht, hans, hslaves⟩ := raiseException_answers fc code hs
  exact ⟨t, ht, hans, hans.txLen, hslaves⟩

/-- Settles O32: a failing request raises SlaveDeviceFailure in the state before its work. -/
theorem internalErrorStoresNothing : Obligations.InternalErrorStoresNothing := by
  intro fc work s sl r hs hw
  rw [serveRequest_failure hs rfl rfl hw]
  exact raiseException_answers fc .slaveDeviceFailure hs

end Sys2Proof.Machine
end

section
/-! SUPPORT. Ticks of the gap timer, one after the other: they count, raise `Silence` once, then saturate (R281,
R282). -/

namespace Sys2Proof.Machine

theorem Server.completeFrame_gapTimer (v : Server) : v.completeFrame.gapTimer = v.gapTimer := by
  obtain he | ⟨k, sl, -, -, -, -, he⟩ := v.completeFrame_cases <;> rw [he]

theorem Server.silence_gapTimer (v : Server) : v.silence.gapTimer = v.gapTimer := by
  obtain ⟨-, he⟩ | ⟨-, -, he⟩ | ⟨-, -, he⟩ := v.silence_cases <;> rw [he]
  exact Server.completeFrame_gapTimer _

theorem Server.tick_of_lt {v : Server} (hown : v.ownsChannel = true) (h : v.gapTimer < Config.tSilentTicks) :
    v.tick = { v with gapTimer := v.gapTimer + 1 } := by
  simp [Server.tick, hown, h.le, h.ne]

theorem Server.tick_of_eq {v : Server} (hown : v.ownsChannel = true) (h : v.gapTimer = Config.tSilentTicks) :
    v.tick = { v with gapTimer := v.gapTimer + 1 }.silence := by
  simp [Server.tick, hown, h]

theorem Server.tick_of_gt {v : Server} (h : Config.tSilentTicks < v.gapTimer) : v.tick = v := by
  simp [Server.tick, h.not_ge]

/-- As long as the gap does not exceed `T_SILENT_TICKS`, ticks only count (R281). -/
theorem Server.tick_iterate {v : Server} (hown : v.ownsChannel = true) {k : Nat}
    (hk : v.gapTimer + k ≤ Config.tSilentTicks) :
    Server.tick^[k] v = { v with gapTimer := v.gapTimer + k } := by
  induction k with
  | zero => rfl
  | succ k ih =>
    rw [Function.iterate_succ_apply', ih (Nat.le_of_succ_le hk)]
    exact Server.tick_of_lt hown hk

/-- Settles O51: the ticks up to `T_SILENT_TICKS` count, and the next one finds the timer there. -/
theorem silenceIsRaisedOncePerGap : Obligations.SilenceIsRaisedOncePerGap := by
  refine ⟨fun v hown hzero => ?_, fun v hgt => Server.tick_of_gt hgt⟩
  have hcount : ∀ k ≤ Config.tSilentTicks, Server.tick^[k] v = { v with gapTimer := k } := by
    intro k hk
    have hiter := Server.tick_iterate hown (k := k) (by omega)
    rwa [hzero, Nat.zero_add] at hiter
  have hsilence : Server.tick^[Config.tSilentTicks + 1] v =
      Server.silence { v with gapTimer := Config.tSilentTicks + 1 } := by
    rw [Function.iterate_succ_apply', hcount _ le_rfl]
    exact Server.tick_of_eq hown rfl
  exact ⟨hcount, hsilence, by rw [hsilence, Server.silence_gapTimer]⟩

end Sys2Proof.Machine
end

section
/-! SUPPORT. What any of the host's operations can do to the Server (R239, R241, R270). -/

namespace Sys2Proof.Machine

/-- A host operation leaves the Server as it was, or it is applied and answers so (R270). -/
theorem Server.hostOp_unchanged_or_ok (v : Server) (op : HostOp) :
    (v.hostOp op).1 = v ∨ (v.hostOp op).2 = .ok := by
  cases op with
  | addSlave address =>
    exact (v.addSlave_cases address).imp (fun ⟨_, he⟩ => congrArg Prod.fst he)
      fun ⟨_, _, _, _, he⟩ => congrArg Prod.snd he
  | addBlock slave name cat start length =>
    exact (v.addBlock_cases slave name cat start length).imp (fun ⟨_, he⟩ => congrArg Prod.fst he)
      fun ⟨_, _, _, _, _, _, he⟩ => congrArg Prod.snd he
  | setValues slave name address vals =>
    exact (v.setValues_cases slave name address vals).imp (fun ⟨_, he⟩ => congrArg Prod.fst he)
      fun ⟨_, _, _, _, _, _, he⟩ => congrArg Prod.snd he
  | start chanAvailable =>
    exact (v.start_cases chanAvailable).imp (fun ⟨_, he⟩ => congrArg Prod.fst he)
      fun ⟨_, he⟩ => congrArg Prod.snd he
  | stop =>
    exact v.stop_cases.imp (fun ⟨_, he⟩ => congrArg Prod.fst he) fun ⟨_, he⟩ => congrArg Prod.snd he
  | getBlock slave name => exact .inl rfl
  | peek slave cat address count => exact .inl rfl

/-- Settles O59: an operation that is applied does not answer with a failure. -/
theorem failedHostOpsChangeNothing : Obligations.FailedHostOpsChangeNothing := by
  intro op s t f h hfailed
  injection h with h
  subst h
  obtain hsame | hok := s.server.hostOp_unchanged_or_ok op
  · exact hsame
  · rw [hok] at hfailed
    simp at hfailed

end Sys2Proof.Machine
end

section
/-! SUPPORT. The states in which an event has no transition, ruled out by the invariant of R39 one by one (R271,
R304). -/

namespace Sys2Proof.Machine

/-- A frame that is not too short holds a PDU (R90, R142). -/
theorem pduOf_ne_nil {f : List Byte} (h : Config.minFrame ≤ f.length) : pduOf f ≠ [] := by
  rw [Config.minFrame] at h
  rw [← List.length_pos_iff, pduOf, List.length_drop, List.length_take]
  omega

/-- While a request is in flight there is a Slave to serve it and a PDU to execute (R31, R39 I-4, R110). -/
theorem Server.Inv.request_in_flight {v : Server} (h : v.Inv) (hd : v.dispState = .processing) :
    (∃ sl, v.currentSlave = some sl) ∧ pduOf v.frame ≠ [] := by
  obtain ⟨hmin, hmax, -, haddr⟩ := h.accepted hd
  have hpos : 0 < v.rxBuf.length := by simp [h.rxBufSize, Config.maxFrame]
  rw [List.getElem?_eq_getElem hpos] at haddr
  obtain ⟨sl, hsl, -⟩ := Option.map_eq_some_iff.1 haddr
  have hlen : v.frame.length = v.rxLen := v.frame_length (hmax.trans h.rxBufSize.ge)
  exact ⟨⟨sl, hsl⟩, pduOf_ne_nil (hmin.trans hlen.ge)⟩

theorem process_has_next {s : State} (hs : s.Inv) : ∃ t, process s = .next t := by
  by_cases hd : s.server.dispState = .processing
  · obtain ⟨⟨sl, hsl⟩, hpdu⟩ := Server.Inv.request_in_flight hs hd
    exact ⟨_, process_eq_answered hd hsl hpdu⟩
  · exact ⟨s, process_of_ne_processing hd⟩

/-- While bytes are accepted there is room for one (R131). -/
theorem handleEvent_rxByte_has_next {s : State} (hs : s.Inv) (b : Byte) :
    ∃ t, handleEvent (.rxByte b) s = .next t := by
  cases hd : s.server.dispState with
  | awaitingRequest =>
    cases hr : s.server.resync with
    | false => exact ⟨_, receiveByte_accept hd hr (hs.rxRoom hd) b⟩
    | true => exact ⟨_, byteIsDiscardedUntilSilence b s hd hr⟩
  | processing => exact ⟨_, byteIsLostWhileBusy b s (.inl hd)⟩
  | responding => exact ⟨_, byteIsLostWhileBusy b s (.inr hd)⟩
  | idle => exact ⟨s, handleEvent_off_channel (.inl hd) rfl⟩
  | stopped => exact ⟨s, handleEvent_off_channel (.inr hd) rfl⟩

/-- A response lies inside the transmit buffer, and with it the next byte to emit (R32, R207). -/
theorem handleEvent_txReady_has_next {s : State} (hs : s.Inv) : ∃ t, handleEvent .txReady s = .next t := by
  by_cases hc : s.server.dispState = .responding ∧ s.server.txPos < s.server.txLen
  · obtain ⟨hd, hp⟩ := hc
    have hin : s.server.txPos < s.server.txBuf.length := by
      have hsize := hs.txBufSize
      have hlen := hs.txBounded.2
      rw [Config.maxFrame] at hsize
      omega
    exact ⟨_, (txReadyEmitsTheNextByte s).1 _ hd hp (List.getElem?_eq_getElem hin)⟩
  · exact ⟨s, handleEvent_txReady_no_effect hc⟩

theorem handleEvent_has_next {s : State} (hs : s.Inv) (e : Event) : ∃ t, handleEvent e s = .next t := by
  cases e with
  | rxByte b => exact handleEvent_rxByte_has_next hs b
  | silence => exact ⟨_, rfl⟩
  | tick => exact ⟨_, rfl⟩
  | txReady => exact handleEvent_txReady_has_next hs
  | txDrained => exact ⟨_, rfl⟩
  | process => exact process_has_next hs
  | host op => exact ⟨_, rfl⟩

/-- Settles O4: a step handles an event or runs `Process`, and either has a next state. -/
theorem machineNeverStopsUnderInvariant : Obligations.MachineNeverStopsUnderInvariant := by
  intro s hs
  cases hin : s.inbox with
  | nil => rw [step_of_inbox_nil hin]; exact process_has_next hs
  | cons e rest =>
    rw [step_of_inbox_cons hin]
    exact handleEvent_has_next (s := { s with inbox := rest }) hs e

end Sys2Proof.Machine
end

section
/-! SUPPORT. The Server as creation leaves it (R291). -/

namespace Sys2Proof.Machine

/-- Settles O1: the fields are those of the created Server, an `Idle` Server has no channel for a bus event to come
from, and `start` is legal in `Idle`. -/
theorem resetIsCreatedIdle : Obligations.ResetIsCreatedIdle := by
  have hidle : State.reset.server.dispState = .idle := rfl
  have hstart := (startEntersService State.reset.server).1 hidle
  refine ⟨hidle, rfl, rfl, rfl, rfl, rfl, rfl, rfl, fun e he => handleEvent_off_channel (.inl hidle) he, _, rfl, ?_⟩
  exact congrArg (fun r => r.1.dispState) hstart

end Sys2Proof.Machine
end
